-- ==== Sys2Proof/Word.lean ====
section
/-! DEFINITION. The word types of the block (spec/00_scope.md R5, spec/30_encoding.md R60).
Every value is unsigned. Bit 0 is the least significant bit, and `a ++ b` puts `a` in the more significant bits. -/

namespace Sys2Proof

/-- The unit of the buffer space, 8 bits (R42). -/
abbrev Byte := BitVec 8

/-- One 64-bit command word, a value and not a byte sequence (R60). -/
abbrev CommandWord := BitVec 64

/-- The width of the command's immediate, of the widest register and of DOUT (R18, R60). -/
abbrev Datum := BitVec 48

/-- The checksum engine's 32-bit accumulator ACC (R22). -/
abbrev Acc := BitVec 32

end Sys2Proof
end

