-- ==== Sys2Proof/Syntax.lean ====
section
/-! DEFINITION. The 26 commands of spec/30_encoding.md R63, one constructor per row of spec/opcode_table.json.
Operands are the fields of the command word as R66 takes them. A register operand stays an 8-bit index, because an
index that names no register is no decoding error but ends the command with ERR_BAD_REG (R67). -/

namespace Sys2Proof

/-- A command (R63). The event of an FSM command is in its opcode (R150). -/
inductive Instr where
  /-- NOP (R80) -/
  | nop
  /-- RST (R81) -/
  | rst
  /-- WR rd, value (R82) -/
  | wr (rd : BitVec 8) (value : Datum)
  /-- RD rs (R83) -/
  | rd (rs : BitVec 8)
  /-- MOV rd, rs (R84) -/
  | mov (rd : BitVec 8) (rs : BitVec 8)
  /-- BCLR (R85) -/
  | bclr
  /-- BPUSH n, value (R86) -/
  | bpush (n : BitVec 8) (value : Datum)
  /-- BRD idx (R87) -/
  | brd (idx : BitVec 16)
  /-- BWR idx, byte (R88) -/
  | bwr (idx : BitVec 16) (byte : Byte)
  /-- CSUM.BUF (R106) -/
  | csumBuf
  /-- ETH.ENC (R111) -/
  | ethEnc
  /-- ETH.DEC (R112) -/
  | ethDec
  /-- IP4.ENC (R122) -/
  | ip4Enc
  /-- IP4.DEC (R123) -/
  | ip4Dec
  /-- IP4.CSUM (R124) -/
  | ip4Csum
  /-- TCP.ENC (R138) -/
  | tcpEnc
  /-- TCP.DEC (R139) -/
  | tcpDec
  /-- TCP.CSUM (R140) -/
  | tcpCsum
  /-- FSM.RCV_SYN (R153) -/
  | fsmRcvSyn
  /-- FSM.RCV_SYNACK (R154) -/
  | fsmRcvSynack
  /-- FSM.RCV_ACK (R155) -/
  | fsmRcvAck
  /-- FSM.RCV_FIN (R156) -/
  | fsmRcvFin
  /-- FSM.RCV_RST (R157) -/
  | fsmRcvRst
  /-- FSM.SND_SYN (R158) -/
  | fsmSndSyn
  /-- FSM.SND_FIN (R159) -/
  | fsmSndFin
  /-- FSM.SND_ACK (R160) -/
  | fsmSndAck
deriving DecidableEq, Repr

end Sys2Proof
end

