-- ==== Sys2Proof/WellFormed.lean ====
section
/-! DEFINITION. Which commands have a command word (spec/30_encoding.md R61, R63). Only BPUSH has an extra condition:
1 <= A <= 6 and IMM[47:8*A] = 0. -/

namespace Sys2Proof

/-- BPUSH's condition on its count `n` and its bytes `value` (R61 format P, R63). -/
def pushOperandsOk (n : BitVec 8) (value : Datum) : Bool :=
  decide (1 ≤ n.toNat) && decide (n.toNat ≤ 6) && decide (value.toNat < 2 ^ (8 * n.toNat))

/-- A command that some word selects (R63). -/
def Instr.wellFormed : Instr → Bool
  | .bpush n value => pushOperandsOk n value
  | .nop | .rst | .wr _ _ | .rd _ | .mov _ _ | .bclr | .brd _ | .bwr _ _ | .csumBuf => true
  | .ethEnc | .ethDec | .ip4Enc | .ip4Dec | .ip4Csum | .tcpEnc | .tcpDec | .tcpCsum => true
  | .fsmRcvSyn | .fsmRcvSynack | .fsmRcvAck | .fsmRcvFin => true
  | .fsmRcvRst | .fsmSndSyn | .fsmSndFin | .fsmSndAck => true

end Sys2Proof
end

