-- ==== Sys2Proof/Decode.lean ====
section
/-! DEFINITION. Command words (spec/30_encoding.md): the fields of a word (R60), the decoder, total on all 2^64 words
(R61, R63 to R66), the encoder, and the opcode map of R63 as data. -/

namespace Sys2Proof

/-- OP, bits 63:56 (R60). -/
def opField (w : CommandWord) : BitVec 8 := w.extractLsb' 56 8

/-- A, bits 55:48 (R60). -/
def aField (w : CommandWord) : BitVec 8 := w.extractLsb' 48 8

/-- IMM, bits 47:0 (R60). -/
def immField (w : CommandWord) : Datum := w.extractLsb' 0 48

/-- The word with the three given fields (R60). -/
def mkWord (op a : BitVec 8) (imm : Datum) : CommandWord := op ++ a ++ imm

/-- Why a word selects no command (R64, R65). -/
inductive DecodeError where
  /-- the OP byte is not in the map (R65) -/
  | unassignedOpcode
  /-- A is not zero in a format that marks it 0 (R61) -/
  | nonzeroA
  /-- a bit of IMM is not zero that the format marks 0 (R61) -/
  | nonzeroImm
  /-- BPUSH with a count of 0 or above 6, or with bits above its bytes (R61 format P) -/
  | badPush
deriving DecidableEq, Repr

/-- What a word selects: exactly one command, or none (R65). -/
inductive Decoded where
  | instr (i : Instr)
  | illegal (e : DecodeError)
deriving DecidableEq, Repr

/-- Format N: A = 0 and IMM = 0 (R61). -/
def formatN (w : CommandWord) (i : Instr) : Decoded :=
  if aField w ≠ 0 then .illegal .nonzeroA
  else if immField w ≠ 0 then .illegal .nonzeroImm
  else .instr i

/-- Format R: A = rs and IMM = 0 (R61). -/
def formatR (w : CommandWord) : Decoded :=
  if immField w ≠ 0 then .illegal .nonzeroImm else .instr (.rd (aField w))

/-- Format M: A = rd, IMM[7:0] = rs and IMM[47:8] = 0 (R61). -/
def formatM (w : CommandWord) : Decoded :=
  if (immField w).extractLsb' 8 40 ≠ 0 then .illegal .nonzeroImm
  else .instr (.mov (aField w) ((immField w).extractLsb' 0 8))

/-- Format P: A = n, 1 to 6, the n bytes in IMM[8n-1:0] and IMM[47:8n] = 0 (R61). -/
def formatP (w : CommandWord) : Decoded :=
  if pushOperandsOk (aField w) (immField w) then .instr (.bpush (aField w) (immField w)) else .illegal .badPush

/-- Format X: A = 0, IMM[15:0] = idx and IMM[47:16] = 0 (R61). -/
def formatX (w : CommandWord) : Decoded :=
  if aField w ≠ 0 then .illegal .nonzeroA
  else if (immField w).extractLsb' 16 32 ≠ 0 then .illegal .nonzeroImm
  else .instr (.brd ((immField w).extractLsb' 0 16))

/-- Format Y: A = byte, IMM[15:0] = idx and IMM[47:16] = 0 (R61). -/
def formatY (w : CommandWord) : Decoded :=
  if (immField w).extractLsb' 16 32 ≠ 0 then .illegal .nonzeroImm
  else .instr (.bwr ((immField w).extractLsb' 0 16) (aField w))

/-- The decoder (R63): by the whole OP byte, then the format's zero bits and BPUSH's extra condition (R64, R67). -/
def decode (w : CommandWord) : Decoded :=
  match opField w with
  | 0x00#8 => formatN w .nop
  | 0x01#8 => formatN w .rst
  | 0x02#8 => .instr (.wr (aField w) (immField w))
  | 0x03#8 => formatR w
  | 0x04#8 => formatM w
  | 0x08#8 => formatN w .bclr
  | 0x09#8 => formatP w
  | 0x0A#8 => formatX w
  | 0x0B#8 => formatY w
  | 0x10#8 => formatN w .csumBuf
  | 0x20#8 => formatN w .ethEnc
  | 0x21#8 => formatN w .ethDec
  | 0x30#8 => formatN w .ip4Enc
  | 0x31#8 => formatN w .ip4Dec
  | 0x32#8 => formatN w .ip4Csum
  | 0x40#8 => formatN w .tcpEnc
  | 0x41#8 => formatN w .tcpDec
  | 0x42#8 => formatN w .tcpCsum
  | 0x50#8 => formatN w .fsmRcvSyn
  | 0x51#8 => formatN w .fsmRcvSynack
  | 0x52#8 => formatN w .fsmRcvAck
  | 0x53#8 => formatN w .fsmRcvFin
  | 0x54#8 => formatN w .fsmRcvRst
  | 0x55#8 => formatN w .fsmSndSyn
  | 0x56#8 => formatN w .fsmSndFin
  | 0x57#8 => formatN w .fsmSndAck
  | _ => .illegal .unassignedOpcode

/-- The command word of a well-formed command (R61, R63, R68). -/
def encode : Instr → CommandWord
  | .nop => mkWord 0x00#8 0 0
  | .rst => mkWord 0x01#8 0 0
  | .wr rd value => mkWord 0x02#8 rd value
  | .rd rs => mkWord 0x03#8 rs 0
  | .mov rd rs => mkWord 0x04#8 rd (rs.setWidth 48)
  | .bclr => mkWord 0x08#8 0 0
  | .bpush n value => mkWord 0x09#8 n value
  | .brd idx => mkWord 0x0A#8 0 (idx.setWidth 48)
  | .bwr idx byte => mkWord 0x0B#8 byte (idx.setWidth 48)
  | .csumBuf => mkWord 0x10#8 0 0
  | .ethEnc => mkWord 0x20#8 0 0
  | .ethDec => mkWord 0x21#8 0 0
  | .ip4Enc => mkWord 0x30#8 0 0
  | .ip4Dec => mkWord 0x31#8 0 0
  | .ip4Csum => mkWord 0x32#8 0 0
  | .tcpEnc => mkWord 0x40#8 0 0
  | .tcpDec => mkWord 0x41#8 0 0
  | .tcpCsum => mkWord 0x42#8 0 0
  | .fsmRcvSyn => mkWord 0x50#8 0 0
  | .fsmRcvSynack => mkWord 0x51#8 0 0
  | .fsmRcvAck => mkWord 0x52#8 0 0
  | .fsmRcvFin => mkWord 0x53#8 0 0
  | .fsmRcvRst => mkWord 0x54#8 0 0
  | .fsmSndSyn => mkWord 0x55#8 0 0
  | .fsmSndFin => mkWord 0x56#8 0 0
  | .fsmSndAck => mkWord 0x57#8 0 0

/-- The mnemonic of a command as R63 spells it. -/
def Instr.mnemonic : Instr → String
  | .nop => "NOP"
  | .rst => "RST"
  | .wr _ _ => "WR"
  | .rd _ => "RD"
  | .mov _ _ => "MOV"
  | .bclr => "BCLR"
  | .bpush _ _ => "BPUSH"
  | .brd _ => "BRD"
  | .bwr _ _ => "BWR"
  | .csumBuf => "CSUM.BUF"
  | .ethEnc => "ETH.ENC"
  | .ethDec => "ETH.DEC"
  | .ip4Enc => "IP4.ENC"
  | .ip4Dec => "IP4.DEC"
  | .ip4Csum => "IP4.CSUM"
  | .tcpEnc => "TCP.ENC"
  | .tcpDec => "TCP.DEC"
  | .tcpCsum => "TCP.CSUM"
  | .fsmRcvSyn => "FSM.RCV_SYN"
  | .fsmRcvSynack => "FSM.RCV_SYNACK"
  | .fsmRcvAck => "FSM.RCV_ACK"
  | .fsmRcvFin => "FSM.RCV_FIN"
  | .fsmRcvRst => "FSM.RCV_RST"
  | .fsmSndSyn => "FSM.SND_SYN"
  | .fsmSndFin => "FSM.SND_FIN"
  | .fsmSndAck => "FSM.SND_ACK"

/-- One row of the opcode map: a word selects the command when `(word AND mask) = pattern` and, where `push` is set,
BPUSH's extra condition holds (R63). -/
structure OpcodeRow where
  mnemonic : String
  pattern  : CommandWord
  mask     : CommandWord
  push     : Bool
deriving DecidableEq, Repr

/-- Does the word select this row (R63)? -/
def OpcodeRow.selects (r : OpcodeRow) (w : CommandWord) : Bool :=
  (w &&& r.mask == r.pattern) && (!r.push || pushOperandsOk (aField w) (immField w))

/-- The rows with one fixed word: format N (R63). -/
def opcodeMapFormatN : List OpcodeRow :=
  [ ⟨"NOP", 0x0000000000000000, 0xFFFFFFFFFFFFFFFF, false⟩,
    ⟨"RST", 0x0100000000000000, 0xFFFFFFFFFFFFFFFF, false⟩,
    ⟨"BCLR", 0x0800000000000000, 0xFFFFFFFFFFFFFFFF, false⟩,
    ⟨"CSUM.BUF", 0x1000000000000000, 0xFFFFFFFFFFFFFFFF, false⟩,
    ⟨"ETH.ENC", 0x2000000000000000, 0xFFFFFFFFFFFFFFFF, false⟩,
    ⟨"ETH.DEC", 0x2100000000000000, 0xFFFFFFFFFFFFFFFF, false⟩,
    ⟨"IP4.ENC", 0x3000000000000000, 0xFFFFFFFFFFFFFFFF, false⟩,
    ⟨"IP4.DEC", 0x3100000000000000, 0xFFFFFFFFFFFFFFFF, false⟩,
    ⟨"IP4.CSUM", 0x3200000000000000, 0xFFFFFFFFFFFFFFFF, false⟩,
    ⟨"TCP.ENC", 0x4000000000000000, 0xFFFFFFFFFFFFFFFF, false⟩,
    ⟨"TCP.DEC", 0x4100000000000000, 0xFFFFFFFFFFFFFFFF, false⟩,
    ⟨"TCP.CSUM", 0x4200000000000000, 0xFFFFFFFFFFFFFFFF, false⟩,
    ⟨"FSM.RCV_SYN", 0x5000000000000000, 0xFFFFFFFFFFFFFFFF, false⟩,
    ⟨"FSM.RCV_SYNACK", 0x5100000000000000, 0xFFFFFFFFFFFFFFFF, false⟩,
    ⟨"FSM.RCV_ACK", 0x5200000000000000, 0xFFFFFFFFFFFFFFFF, false⟩,
    ⟨"FSM.RCV_FIN", 0x5300000000000000, 0xFFFFFFFFFFFFFFFF, false⟩,
    ⟨"FSM.RCV_RST", 0x5400000000000000, 0xFFFFFFFFFFFFFFFF, false⟩,
    ⟨"FSM.SND_SYN", 0x5500000000000000, 0xFFFFFFFFFFFFFFFF, false⟩,
    ⟨"FSM.SND_FIN", 0x5600000000000000, 0xFFFFFFFFFFFFFFFF, false⟩,
    ⟨"FSM.SND_ACK", 0x5700000000000000, 0xFFFFFFFFFFFFFFFF, false⟩ ]

/-- The rows with operand fields: formats W, R, M, P, X, Y (R63). -/
def opcodeMapOperands : List OpcodeRow :=
  [ ⟨"WR", 0x0200000000000000, 0xFF00000000000000, false⟩,
    ⟨"RD", 0x0300000000000000, 0xFF00FFFFFFFFFFFF, false⟩,
    ⟨"MOV", 0x0400000000000000, 0xFF00FFFFFFFFFF00, false⟩,
    ⟨"BPUSH", 0x0900000000000000, 0xFF00000000000000, true⟩,
    ⟨"BRD", 0x0A00000000000000, 0xFFFFFFFFFFFF0000, false⟩,
    ⟨"BWR", 0x0B00000000000000, 0xFF00FFFFFFFF0000, false⟩ ]

/-- The complete opcode map, 26 rows (R63, spec/opcode_table.json). -/
def opcodeMap : List OpcodeRow := opcodeMapFormatN ++ opcodeMapOperands

/-- The host's question of the opcode table: the low `nbits` bits of `w` as one command word, bit 0 the least
significant bit, the bits above zero (R60; log 6). -/
def tableWord (nbits w : Nat) : CommandWord := BitVec.ofNat 64 (w % 2 ^ nbits)

/-- The command the decoder reads from the word that `nbits` and `w` give, or none where it is illegal. -/
def decodeTableWord (nbits w : Nat) : Option Instr :=
  match decode (tableWord nbits w) with
  | .instr i => some i
  | .illegal _ => none

end Sys2Proof
end

