-- ==== Sys2Proof/Config.lean ====
section
/-! DEFINITION. What an implementation fixes (spec/00_scope.md R4) and the named constants (spec/10_state.md R27). -/

namespace Sys2Proof.Config

/-- The implementation's choice behind BUF_MAX. It has no value in the model: nothing can be proved of it (log 2). -/
opaque bufMaxChoice : Nat

/-- BUF_MAX, the capacity of BUF and the greatest value of LEN (R4, D6): any natural number from 64 to 65535, and
every one of them for some choice. The lower bound is written so that it evaluates (log 2, DESIGN CHOICE). -/
def bufMax : Nat := bufMaxChoice % 65472 + 64

/-- N_CONN: TCP connection state machines in one block (R4, D23). -/
def nConn : Nat := 1

/-- CMD_W: the width of a command word (R4, D2). -/
def cmdW : Nat := 64

/-- ACC_W: the width of the checksum accumulator (R4). -/
def accW : Nat := 32

/-- Bytes of the Ethernet header (R27, R110). -/
def ethHdrLen : Nat := 14

/-- Bytes of the IPv4 header without options (R27, R120). -/
def ip4HdrLen : Nat := 20

/-- Bytes of the TCP header without options (R27, R135). -/
def tcpHdrLen : Nat := 20

/-- Bytes of the TCP pseudo-header (R27, R136). -/
def pseudoHdrLen : Nat := 12

/-- The IPv4 version/IHL byte every encode and checksum emits (R27, R120). -/
def ip4VerIhlByte : Byte := 0x45#8

/-- The TCP data-offset byte every encode and checksum emits (R27, R135). -/
def tcpDataOffsetByte : Byte := 0x50#8

/-- The IPv4 protocol number of TCP; used by the block in the pseudo-header only (R128, R136). -/
def protoTcp : Byte := 6#8

/-- The IPv4 protocol number of UDP; a value only, the block compares nothing with it (R27, R128). -/
def protoUdp : Byte := 17#8

/-- Ethertype IPv4; a value only, the block compares nothing with it (R27, R113). -/
def ethertypeIp4 : BitVec 16 := 0x0800#16

/-- Ethertype ARP; a value only, ARP has no codec in the block (R27, R113). -/
def ethertypeArp : BitVec 16 := 0x0806#16

/-- The six named bits of TCP_FLAGS (R15); bits 6 and 7 have no name, and no command interprets any of them. -/
def flagFin : Byte := 0x01#8
def flagSyn : Byte := 0x02#8
def flagRst : Byte := 0x04#8
def flagPsh : Byte := 0x08#8
def flagAck : Byte := 0x10#8
def flagUrg : Byte := 0x20#8

end Sys2Proof.Config
end

