-- ==== Sys2Proof/Machine/State.lean ====
section
/-! DEFINITION. The state of the block (spec/10_state.md): R10 lists all of it, R25 its value after reset. -/

namespace Sys2Proof.Machine

/-- The nine outcomes a command ends with, the only values STATUS ever holds (R17, R170; 93_implementation_defined.md U14). -/
inductive StatusCode where
  /-- 0x00 -/
  | ok
  /-- 0x01: ETH.DEC with LEN < 14 -/
  | errFrameTooSmall
  /-- 0x02: IP4.DEC with LEN < 20 -/
  | errPacketTooSmall
  /-- 0x03: TCP.DEC with LEN < 20 -/
  | errSegmentTooSmall
  /-- 0x04: an event with no row for the current TCP state -/
  | unexpectedEvent
  /-- 0x10: a word that selects no command -/
  | errIllegalCmd
  /-- 0x11: an index that names no register, or a read-only destination -/
  | errBadReg
  /-- 0x12: the result would need LEN > BUF_MAX -/
  | errBufOverflow
  /-- 0x13: a buffer index at or above LEN -/
  | errBadIndex
deriving DecidableEq, Repr

/-- The eleven TCP connection states (R20; U15). -/
inductive TcpState where
  | closed
  | listen
  | synSent
  | synReceived
  | established
  | finWait1
  | finWait2
  | closeWait
  | closing
  | lastAck
  | timeWait
deriving DecidableEq, Repr

/-- Who may write a register (R11): `rw` the host with WR and MOV, `ro` nobody but the commands of R11's last column. -/
inductive Access where
  | rw
  | ro
deriving DecidableEq, Repr

/-- The 28 registers of the register space, by the names of R11. -/
inductive RegName where
  | status
  | dout
  | len
  | csumResult
  | tcpState
  | tcpPrevState
  | ethDst
  | ethSrc
  | ethType
  | ip4VerIhl
  | ip4DscpEcn
  | ip4TotalLength
  | ip4Id
  | ip4FlagsFrag
  | ip4Ttl
  | ip4Protocol
  | ip4HeaderChecksum
  | ip4Src
  | ip4Dst
  | tcpSrcPort
  | tcpDstPort
  | tcpSeq
  | tcpAck
  | tcpDataOffset
  | tcpFlags
  | tcpWindow
  | tcpChecksum
  | tcpUrgent
deriving DecidableEq, Repr

/-- The Ethernet header registers ETH_DST, ETH_SRC, ETH_TYPE (R12). -/
structure EthRegs where
  dst       : BitVec 48
  src       : BitVec 48
  etherType : BitVec 16
deriving DecidableEq, Repr

/-- The IPv4 header registers IP4_* (R13). -/
structure Ip4Regs where
  verIhl         : BitVec 8
  dscpEcn        : BitVec 8
  totalLength    : BitVec 16
  id             : BitVec 16
  flagsFrag      : BitVec 16
  ttl            : BitVec 8
  protocol       : BitVec 8
  headerChecksum : BitVec 16
  src            : BitVec 32
  dst            : BitVec 32
deriving DecidableEq, Repr

/-- The TCP header registers TCP_SRC_PORT to TCP_URGENT (R14). -/
structure TcpRegs where
  srcPort    : BitVec 16
  dstPort    : BitVec 16
  seq        : BitVec 32
  ack        : BitVec 32
  dataOffset : BitVec 4
  flags      : BitVec 8
  window     : BitVec 16
  checksum   : BitVec 16
  urgent     : BitVec 16
deriving DecidableEq, Repr

/-- The valid content BUF[0..LEN) of the byte buffer, index 0 first (R16, R42). The list has exactly LEN bytes, as R43
says a model should hold it: equal buffers are equal lists, and no byte at or above LEN exists (log 3). -/
abbrev Memory := List Byte

/-- The whole state of the block (R10), and the host's command port. LEN is not a field: it is the length of `buf`
(log 3). ACC is not state (R22); there is no program counter (R23). -/
structure State where
  /-- STATUS (R17) -/
  status       : StatusCode
  /-- DOUT (R18) -/
  dout         : Datum
  /-- CSUM_RESULT (R19) -/
  csumResult   : BitVec 16
  /-- TCP_STATE (R20) -/
  tcpState     : TcpState
  /-- TCP_PREV_STATE (R21) -/
  tcpPrevState : TcpState
  /-- the Ethernet header registers (R12) -/
  eth          : EthRegs
  /-- the IPv4 header registers (R13) -/
  ip4          : Ip4Regs
  /-- the TCP header registers (R14) -/
  tcp          : TcpRegs
  /-- BUF[0..LEN) (R16) -/
  buf          : Memory
  /-- The model's own field, not the block's: the command words the host has still to issue, the next one first
  (R7, R8; log 1, DESIGN CHOICE). -/
  port         : List CommandWord
deriving DecidableEq, Repr

/-- What a step tells the host (R7): `outcome` is STATUS and `data` is DOUT after the step. -/
structure Response where
  outcome : BitVec 8
  data    : BitVec 48
deriving DecidableEq, Repr

/-- The reasons the machine stops with a fault. There is none, so there is no constructor and no one to raise it: every
command ends with an outcome in STATUS and the block accepts the next ("Nothing is fatal and nothing is sticky", R173;
log 8, DEDUCED). Safe: nothing is assumed of a stop. -/
inductive Fault where
deriving DecidableEq, Repr

/-- The reasons a step gives no meaning. -/
inductive Refusal where
  /-- Raised by an arm of `exec` whose command has no meaning yet. No arm raises it: all 26 have their meaning. Safe: a
  refused command proves nothing. -/
  | notModelled (mnemonic : String)
deriving DecidableEq, Repr

/-- What a meaning answers. -/
abbrev Result := Host.Outcome State Fault Refusal

/-- The state after reset (R25, R190): TCP_STATE and TCP_PREV_STATE CLOSED, STATUS OK, LEN 0, every other register 0.
The host has issued nothing. -/
def State.reset : State where
  status       := .ok
  dout         := 0
  csumResult   := 0
  tcpState     := .closed
  tcpPrevState := .closed
  eth          := { dst := 0, src := 0, etherType := 0 }
  ip4          := { verIhl := 0, dscpEcn := 0, totalLength := 0, id := 0, flagsFrag := 0, ttl := 0, protocol := 0,
                    headerChecksum := 0, src := 0, dst := 0 }
  tcp          := { srcPort := 0, dstPort := 0, seq := 0, ack := 0, dataOffset := 0, flags := 0, window := 0,
                    checksum := 0, urgent := 0 }
  buf          := []
  port         := []

end Sys2Proof.Machine
end

