-- ==== Sys2Proof/Machine/Flags.lean ====
section
/-! DEFINITION. The status codes of the block. STATUS is its only flag register (spec/10_state.md R24): it has no fields
and holds the outcome code of the most recent command (R17, spec/60_exceptions.md R170). -/

namespace Sys2Proof.Machine

/-- The 8-bit outcome code (R17, R170). -/
def StatusCode.code : StatusCode → BitVec 8
  | .ok => 0x00#8
  | .errFrameTooSmall => 0x01#8
  | .errPacketTooSmall => 0x02#8
  | .errSegmentTooSmall => 0x03#8
  | .unexpectedEvent => 0x04#8
  | .errIllegalCmd => 0x10#8
  | .errBadReg => 0x11#8
  | .errBufOverflow => 0x12#8
  | .errBadIndex => 0x13#8

/-- The seven ERR_ outcomes; UNEXPECTED_EVENT is not one of them (R172). -/
def StatusCode.isErr : StatusCode → Bool
  | .ok | .unexpectedEvent => false
  | .errFrameTooSmall | .errPacketTooSmall | .errSegmentTooSmall => true
  | .errIllegalCmd | .errBadReg | .errBufOverflow | .errBadIndex => true

/-- The 4-bit code of a TCP state, its position in the source's list (R20). -/
def TcpState.code : TcpState → BitVec 4
  | .closed => 0#4
  | .listen => 1#4
  | .synSent => 2#4
  | .synReceived => 3#4
  | .established => 4#4
  | .finWait1 => 5#4
  | .finWait2 => 6#4
  | .closeWait => 7#4
  | .closing => 8#4
  | .lastAck => 9#4
  | .timeWait => 10#4

/-- The Response of the step that led to this state (R7, R171). -/
def State.response (s : State) : Response := ⟨s.status.code, s.dout⟩

end Sys2Proof.Machine
end

