-- ==== Sys2Proof/Machine/Operands.lean ====
section
/-! DEFINITION. Operands: the register space (spec/10_state.md R11, spec/20_memory.md R41) and big-endian byte
sequences (spec/00_scope.md R6, spec/20_memory.md R44). -/

namespace Sys2Proof.Machine

/-- The register's index (R11). -/
def RegName.index : RegName → BitVec 8
  | .status => 0x00#8
  | .dout => 0x01#8
  | .len => 0x02#8
  | .csumResult => 0x03#8
  | .tcpState => 0x04#8
  | .tcpPrevState => 0x05#8
  | .ethDst => 0x10#8
  | .ethSrc => 0x11#8
  | .ethType => 0x12#8
  | .ip4VerIhl => 0x20#8
  | .ip4DscpEcn => 0x21#8
  | .ip4TotalLength => 0x22#8
  | .ip4Id => 0x23#8
  | .ip4FlagsFrag => 0x24#8
  | .ip4Ttl => 0x25#8
  | .ip4Protocol => 0x26#8
  | .ip4HeaderChecksum => 0x27#8
  | .ip4Src => 0x28#8
  | .ip4Dst => 0x29#8
  | .tcpSrcPort => 0x30#8
  | .tcpDstPort => 0x31#8
  | .tcpSeq => 0x32#8
  | .tcpAck => 0x33#8
  | .tcpDataOffset => 0x34#8
  | .tcpFlags => 0x35#8
  | .tcpWindow => 0x36#8
  | .tcpChecksum => 0x37#8
  | .tcpUrgent => 0x38#8

/-- The register's width in bits (R11). -/
def RegName.width : RegName → Nat
  | .status | .ip4VerIhl | .ip4DscpEcn | .ip4Ttl | .ip4Protocol | .tcpFlags => 8
  | .dout | .ethDst | .ethSrc => 48
  | .len | .csumResult | .ethType | .ip4TotalLength | .ip4Id | .ip4FlagsFrag | .ip4HeaderChecksum => 16
  | .tcpSrcPort | .tcpDstPort | .tcpWindow | .tcpChecksum | .tcpUrgent => 16
  | .tcpState | .tcpPrevState | .tcpDataOffset => 4
  | .ip4Src | .ip4Dst | .tcpSeq | .tcpAck => 32

/-- The register's access class (R11). -/
def RegName.access : RegName → Access
  | .status | .dout | .len | .csumResult | .tcpState | .tcpPrevState => .ro
  | .ethDst | .ethSrc | .ethType => .rw
  | .ip4VerIhl | .ip4DscpEcn | .ip4TotalLength | .ip4Id | .ip4FlagsFrag => .rw
  | .ip4Ttl | .ip4Protocol | .ip4HeaderChecksum | .ip4Src | .ip4Dst => .rw
  | .tcpSrcPort | .tcpDstPort | .tcpSeq | .tcpAck | .tcpDataOffset => .rw
  | .tcpFlags | .tcpWindow | .tcpChecksum | .tcpUrgent => .rw

/-- All 28 registers, in the order of R11. -/
def RegName.all : List RegName :=
  [.status, .dout, .len, .csumResult, .tcpState, .tcpPrevState, .ethDst, .ethSrc, .ethType, .ip4VerIhl, .ip4DscpEcn,
    .ip4TotalLength, .ip4Id, .ip4FlagsFrag, .ip4Ttl, .ip4Protocol, .ip4HeaderChecksum, .ip4Src, .ip4Dst, .tcpSrcPort,
    .tcpDstPort, .tcpSeq, .tcpAck, .tcpDataOffset, .tcpFlags, .tcpWindow, .tcpChecksum, .tcpUrgent]

/-- The register an index names; none for the other 228 indices (R11, U13). -/
def regOfIndex (i : BitVec 8) : Option RegName := RegName.all.find? (fun r => r.index == i)

/-- The register an index names as a destination of WR or MOV: it must be `rw` (R11, R41). -/
def destOfIndex (i : BitVec 8) : Option RegName := (regOfIndex i).filter (fun r => r.access == .rw)

/-- Reading a register: its value zero-extended to 48 bits, no side effect (R11, R41). LEN is the buffer's length. -/
def State.readReg (s : State) : RegName → Datum
  | .status => s.status.code.setWidth 48
  | .dout => s.dout
  | .len => (BitVec.ofNat 16 s.buf.length).setWidth 48
  | .csumResult => s.csumResult.setWidth 48
  | .tcpState => s.tcpState.code.setWidth 48
  | .tcpPrevState => s.tcpPrevState.code.setWidth 48
  | .ethDst => s.eth.dst
  | .ethSrc => s.eth.src
  | .ethType => s.eth.etherType.setWidth 48
  | .ip4VerIhl => s.ip4.verIhl.setWidth 48
  | .ip4DscpEcn => s.ip4.dscpEcn.setWidth 48
  | .ip4TotalLength => s.ip4.totalLength.setWidth 48
  | .ip4Id => s.ip4.id.setWidth 48
  | .ip4FlagsFrag => s.ip4.flagsFrag.setWidth 48
  | .ip4Ttl => s.ip4.ttl.setWidth 48
  | .ip4Protocol => s.ip4.protocol.setWidth 48
  | .ip4HeaderChecksum => s.ip4.headerChecksum.setWidth 48
  | .ip4Src => s.ip4.src.setWidth 48
  | .ip4Dst => s.ip4.dst.setWidth 48
  | .tcpSrcPort => s.tcp.srcPort.setWidth 48
  | .tcpDstPort => s.tcp.dstPort.setWidth 48
  | .tcpSeq => s.tcp.seq.setWidth 48
  | .tcpAck => s.tcp.ack.setWidth 48
  | .tcpDataOffset => s.tcp.dataOffset.setWidth 48
  | .tcpFlags => s.tcp.flags.setWidth 48
  | .tcpWindow => s.tcp.window.setWidth 48
  | .tcpChecksum => s.tcp.checksum.setWidth 48
  | .tcpUrgent => s.tcp.urgent.setWidth 48

/-- Writing a register: it stores the low W bits of the datum, W its width, and drops the rest (R41, R66).
A read-only register is never reached here, the commands check first; it would be left as it is (R41; log 9). -/
def State.writeReg (s : State) (r : RegName) (v : Datum) : State :=
  match r with
  | .status | .dout | .len | .csumResult | .tcpState | .tcpPrevState => s
  | .ethDst => { s with eth := { s.eth with dst := v } }
  | .ethSrc => { s with eth := { s.eth with src := v } }
  | .ethType => { s with eth := { s.eth with etherType := v.setWidth 16 } }
  | .ip4VerIhl => { s with ip4 := { s.ip4 with verIhl := v.setWidth 8 } }
  | .ip4DscpEcn => { s with ip4 := { s.ip4 with dscpEcn := v.setWidth 8 } }
  | .ip4TotalLength => { s with ip4 := { s.ip4 with totalLength := v.setWidth 16 } }
  | .ip4Id => { s with ip4 := { s.ip4 with id := v.setWidth 16 } }
  | .ip4FlagsFrag => { s with ip4 := { s.ip4 with flagsFrag := v.setWidth 16 } }
  | .ip4Ttl => { s with ip4 := { s.ip4 with ttl := v.setWidth 8 } }
  | .ip4Protocol => { s with ip4 := { s.ip4 with protocol := v.setWidth 8 } }
  | .ip4HeaderChecksum => { s with ip4 := { s.ip4 with headerChecksum := v.setWidth 16 } }
  | .ip4Src => { s with ip4 := { s.ip4 with src := v.setWidth 32 } }
  | .ip4Dst => { s with ip4 := { s.ip4 with dst := v.setWidth 32 } }
  | .tcpSrcPort => { s with tcp := { s.tcp with srcPort := v.setWidth 16 } }
  | .tcpDstPort => { s with tcp := { s.tcp with dstPort := v.setWidth 16 } }
  | .tcpSeq => { s with tcp := { s.tcp with seq := v.setWidth 32 } }
  | .tcpAck => { s with tcp := { s.tcp with ack := v.setWidth 32 } }
  | .tcpDataOffset => { s with tcp := { s.tcp with dataOffset := v.setWidth 4 } }
  | .tcpFlags => { s with tcp := { s.tcp with flags := v.setWidth 8 } }
  | .tcpWindow => { s with tcp := { s.tcp with window := v.setWidth 16 } }
  | .tcpChecksum => { s with tcp := { s.tcp with checksum := v.setWidth 16 } }
  | .tcpUrgent => { s with tcp := { s.tcp with urgent := v.setWidth 16 } }

/-- `be_n(v)`: the n bytes of `v`, most significant first (R6, R44). -/
def be {w : Nat} : Nat → BitVec w → List Byte
  | 0, _ => []
  | n + 1, v => v.extractLsb' (8 * n) 8 :: be n v

/-- The number whose big-endian bytes follow those of `acc`. -/
def beNat (acc : Nat) : List Byte → Nat
  | [] => acc
  | b :: bs => beNat (acc * 256 + b.toNat) bs

/-- `from_be(s)` as a value of width `w` (R6, R44). -/
def fromBe (w : Nat) (s : List Byte) : BitVec w := BitVec.ofNat w (beNat 0 s)

/-- `s[i..j)` (R5). -/
def slice (s : List Byte) (i j : Nat) : List Byte := (s.drop i).take (j - i)

/-- `s[i]`, for an index the command has checked (R5). -/
def byteAt (s : List Byte) (i : Nat) : Byte := s.getD i 0

end Sys2Proof.Machine
end

