-- ==== Sys2Proof/Machine/Ops.lean ====
section
/-! DEFINITION. The shared operations: named updates of the state, the buffer space (spec/20_memory.md R42, R55, R56),
ending a command with an outcome (spec/60_exceptions.md R171, R172), and taking the host's next command word (R7). -/

namespace Sys2Proof.Machine

/-! ## Named updates, one per field -/

def State.withStatus (s : State) (c : StatusCode) : State := { s with status := c }
def State.withDout (s : State) (v : Datum) : State := { s with dout := v }
def State.withCsumResult (s : State) (v : BitVec 16) : State := { s with csumResult := v }
/-- TCP_STATE and TCP_PREV_STATE, always written together (R152). -/
def State.withFsm (s : State) (next prev : TcpState) : State := { s with tcpState := next, tcpPrevState := prev }
def State.withEth (s : State) (r : EthRegs) : State := { s with eth := r }
def State.withIp4 (s : State) (r : Ip4Regs) : State := { s with ip4 := r }
def State.withTcp (s : State) (r : TcpRegs) : State := { s with tcp := r }
/-- BUF, and with it LEN (R6 `BUF <- s`). -/
def State.withBuf (s : State) (m : Memory) : State := { s with buf := m }
def State.withPort (s : State) (p : List CommandWord) : State := { s with port := p }

/-- LEN as a number (R16). -/
def State.len (s : State) : Nat := s.buf.length

/-! ## The buffer space -/

/-- The buffer keeps within its capacity: 0 <= LEN <= BUF_MAX (R16, R26). -/
def Memory.wf (m : Memory) : Bool := decide (m.length ≤ Config.bufMax)

/-- The byte at an index; none at or above LEN (R42, R43). -/
def Memory.read (m : Memory) (i : Nat) : Option Byte := m[i]?

/-- Overwrites the byte at an index below LEN (R6 `MemWrite`, R42). -/
def Memory.write (m : Memory) (i : Nat) (b : Byte) : Memory := m.set i b

/-- Appends bytes at index LEN (R40, R86). -/
def Memory.push (m : Memory) (bs : List Byte) : Memory := m ++ bs

/-- `BUF <- h ++ BUF` of Prepend (R55). -/
def Memory.prepend (m : Memory) (h : List Byte) : Memory := h ++ m

/-- Strip(k): `BUF <- BUF[k..]`, empty when k >= LEN (R56). -/
def Memory.strip (m : Memory) (k : Nat) : Memory := m.drop k

/-- The buffer as (address, byte) pairs, addresses 0 to LEN-1 in rising order (log 3). -/
def Memory.cells (m : Memory) : List Host.Cell := m.zipIdx.map (fun p => (p.2, p.1))

/-! ## Ending a command -/

/-- Every command ends here: it writes its outcome to STATUS as its last action (R171). The Response is then
`State.response`. -/
def endWith (c : StatusCode) (s : State) : Result := .next (s.withStatus c)

/-- The command has done its work: outcome OK. -/
def complete (s : State) : Result := endWith .ok s

/-- `raise <Outcome>`: the block's analogue of taking an exception (R6, R171, R172). Given the state the command found,
it writes STATUS and nothing else: no mode, no mask, no saved register, no transfer of control. There is no return from
it, because nothing is suspended (R179). -/
def raise (c : StatusCode) (s : State) : Result := endWith c s

/-- `if LEN + n > BUF_MAX then raise ERR_BUF_OVERFLOW` (R55, R86, R140), with the capacity as an argument. -/
def requireRoom (cap n : Nat) (s : State) (go : Result) : Result :=
  if cap < s.len + n then raise .errBufOverflow s else go

/-- `if idx >= LEN then raise ERR_BAD_INDEX` (R42, R87, R88), else go on with the byte there. -/
def requireIndex (idx : Nat) (s : State) (go : Byte → Result) : Result :=
  match Memory.read s.buf idx with
  | none => raise .errBadIndex s
  | some b => go b

/-- `if LEN < n then raise` the decoder's truncation error (R112, R123, R139, R170). -/
def requireLen (n : Nat) (c : StatusCode) (s : State) (go : Result) : Result :=
  if s.len < n then raise c s else go

/-- A word that selects no command: ERR_ILLEGAL_CMD, nothing else changes (R65, R176). -/
def illegalCommand (s : State) : Result := raise .errIllegalCmd s

/-! ## The command port -/

/-- The host's next command word, and the state with it taken; none when the host has issued all (R7; log 1). -/
def State.takeCommand (s : State) : Option (CommandWord × State) :=
  match s.port with
  | [] => none
  | w :: rest => some (w, s.withPort rest)

/-- The host issues `w` next, before the words still in the port (log 1). -/
def State.present (s : State) (w : CommandWord) : State := s.withPort (w :: s.port)

end Sys2Proof.Machine
end

