-- ==== Sys2Proof/Machine/Checksum.lean ====
section
/-! DEFINITION. The checksum engine (spec/41_checksum.md): the function `checksum` (R100 to R104) and CSUM.BUF (R106). -/

namespace Sys2Proof.Machine

/-- Adds one 16-bit word to the accumulator: `ACC <- trunc_32(ACC + zext_32(w))` (R100). -/
def accAdd (acc : Acc) (w : BitVec 16) : Acc := acc + w.setWidth 32

/-- The summing loop of R100: big-endian words from index 0, a trailing byte is the high byte of a last word whose low
byte is zero (R102). Beyond 131072 bytes, which the block cannot present, see log 5. -/
def sumWords (acc : Acc) : List Byte → Acc
  | [] => acc
  | [b] => accAdd acc (b ++ (0#8 : Byte))
  | a :: b :: rest => sumWords (accAdd acc (a ++ b)) rest

/-- One fold step: `ACC <- ACC[15:0] + ACC[31:16]`, both zero-extended (R101). -/
def foldStep (acc : Acc) : Acc := (acc.extractLsb' 0 16).setWidth 32 + (acc.extractLsb' 16 16).setWidth 32

/-- `while ACC[31:16] != 0: fold step`, with at most `n` steps (R100, R101). -/
def foldLoop : Nat → Acc → Acc
  | 0, acc => acc
  | n + 1, acc => if acc.extractLsb' 16 16 = 0 then acc else foldLoop n (foldStep acc)

/-- The fold "until no carry remains": two steps always suffice (R101; log 10, DEDUCED). -/
def fold (acc : Acc) : Acc := foldLoop 2 acc

/-- The Internet checksum of a byte sequence (R100). -/
def checksum (s : List Byte) : BitVec 16 := ~~~ ((fold (sumWords 0 s)).extractLsb' 0 16)

/-- CSUM.BUF (R106). -/
def execCsumBuf (s : State) : Result := complete (s.withCsumResult (checksum s.buf))

end Sys2Proof.Machine
end

