-- ==== Sys2Proof/Machine/Ethernet.lean ====
section
/-! DEFINITION. The Ethernet frame codec (spec/42_ethernet.md R110 to R112). -/

namespace Sys2Proof.Machine

/-- `eth_hdr_bytes` (R110): destination MAC, source MAC, ethertype, 14 bytes. -/
def ethHdrBytes (r : EthRegs) : List Byte := be 6 r.dst ++ be 6 r.src ++ be 2 r.etherType

/-- The header fields ETH.DEC reads from the first 14 bytes (R112). -/
def ethRegsOf (m : Memory) : EthRegs where
  dst       := fromBe 48 (slice m 0 6)
  src       := fromBe 48 (slice m 6 12)
  etherType := fromBe 16 (slice m 12 14)

/-- ETH.ENC (R111). -/
def execEthEnc (s : State) : Result :=
  requireRoom Config.bufMax Config.ethHdrLen s (complete (s.withBuf (Memory.prepend s.buf (ethHdrBytes s.eth))))

/-- ETH.DEC (R112). -/
def execEthDec (s : State) : Result :=
  requireLen Config.ethHdrLen .errFrameTooSmall s
    (complete ((s.withEth (ethRegsOf s.buf)).withBuf (Memory.strip s.buf Config.ethHdrLen)))

end Sys2Proof.Machine
end

