-- ==== Sys2Proof/Machine/Fsm.lean ====
section
/-! DEFINITION. The TCP connection state machine (spec/45_tcp_fsm.md R150 to R160). -/

namespace Sys2Proof.Machine

/-- The eight events, in the order of their numbers 0 to 7 (R150). -/
inductive Event where
  | rcvSyn
  | rcvSynack
  | rcvAck
  | rcvFin
  | rcvRst
  | sndSyn
  | sndFin
  | sndAck
deriving DecidableEq, Repr

/-- The ten rows of the source's transition table; no row for any other pair (R151). -/
def transition : TcpState → Event → Option TcpState
  | .listen, .rcvSyn => some .synReceived
  | .synSent, .rcvSynack => some .established
  | .synReceived, .rcvAck => some .established
  | .established, .rcvFin => some .closeWait
  | .established, .sndFin => some .finWait1
  | .finWait1, .rcvFin => some .closing
  | .finWait2, .rcvFin => some .timeWait
  | .closeWait, .sndFin => some .lastAck
  | .closed, .sndSyn => some .synSent
  | _, .rcvRst => some .closed
  | _, _ => none

/-- The transition function `delta` (R151): send-ACK changes nothing and is OK (R167); a listed pair moves with OK; any
other pair leaves the state and is reported as UNEXPECTED_EVENT. -/
def delta (s : TcpState) (e : Event) : TcpState × StatusCode :=
  match e, transition s e with
  | .sndAck, _ => (s, .ok)
  | _, some s' => (s', .ok)
  | _, none => (s, .unexpectedEvent)

/-- The behaviour common to the eight FSM commands (R152). -/
def deliver (e : Event) (s : State) : Result :=
  endWith (delta s.tcpState e).2 (s.withFsm (delta s.tcpState e).1 s.tcpState)

/-- FSM.RCV_SYN (R153). -/
def execFsmRcvSyn (s : State) : Result := deliver .rcvSyn s

/-- FSM.RCV_SYNACK (R154). -/
def execFsmRcvSynack (s : State) : Result := deliver .rcvSynack s

/-- FSM.RCV_ACK (R155). -/
def execFsmRcvAck (s : State) : Result := deliver .rcvAck s

/-- FSM.RCV_FIN (R156). -/
def execFsmRcvFin (s : State) : Result := deliver .rcvFin s

/-- FSM.RCV_RST (R157). -/
def execFsmRcvRst (s : State) : Result := deliver .rcvRst s

/-- FSM.SND_SYN (R158). -/
def execFsmSndSyn (s : State) : Result := deliver .sndSyn s

/-- FSM.SND_FIN (R159). -/
def execFsmSndFin (s : State) : Result := deliver .sndFin s

/-- FSM.SND_ACK (R160). -/
def execFsmSndAck (s : State) : Result := deliver .sndAck s

end Sys2Proof.Machine
end

