-- ==== Sys2Proof/Machine/HostAccess.lean ====
section
/-! DEFINITION. The nine host access commands (spec/40_host_access.md R80 to R88). -/

namespace Sys2Proof.Machine

/-- NOP (R80): only STATUS. -/
def execNop (s : State) : Result := complete s

/-- RST (R81, R190): every piece of the block's state takes its reset value; the host's port is not the block's (log 1). -/
def execRst (s : State) : Result := complete (State.reset.withPort s.port)

/-- WR rd, value (R82): a whole register, the datum truncated to its width. -/
def execWr (rd : BitVec 8) (value : Datum) (s : State) : Result :=
  match destOfIndex rd with
  | none => raise .errBadReg s
  | some r => complete (s.writeReg r value)

/-- RD rs (R83): DOUT takes the register, read before this command writes STATUS. -/
def execRd (rs : BitVec 8) (s : State) : Result :=
  match regOfIndex rs with
  | none => raise .errBadReg s
  | some r => complete (s.withDout (s.readReg r))

/-- MOV rd, rs (R84): the source is read before this command writes STATUS. -/
def execMov (rd rs : BitVec 8) (s : State) : Result :=
  match destOfIndex rd, regOfIndex rs with
  | some d, some r => complete (s.writeReg d (s.readReg r))
  | _, _ => raise .errBadReg s

/-- BCLR (R85): the buffer is empty. -/
def execBclr (s : State) : Result := complete (s.withBuf [])

/-- BPUSH n, value (R86): appends the n bytes, most significant first, or none. A term no word selects (n = 0, n > 6,
bits above the bytes) ends as the illegal word it stands for (R64; log 9). -/
def execBpush (n : BitVec 8) (value : Datum) (s : State) : Result :=
  if pushOperandsOk n value then
    requireRoom Config.bufMax n.toNat s (complete (s.withBuf (Memory.push s.buf (be n.toNat value))))
  else illegalCommand s

/-- BRD idx (R87): DOUT takes the byte. -/
def execBrd (idx : BitVec 16) (s : State) : Result :=
  requireIndex idx.toNat s (fun b => complete (s.withDout (b.setWidth 48)))

/-- BWR idx, byte (R88): overwrites a valid byte; LEN is unchanged. -/
def execBwr (idx : BitVec 16) (byte : Byte) (s : State) : Result :=
  requireIndex idx.toNat s (fun _ => complete (s.withBuf (Memory.write s.buf idx.toNat byte)))

end Sys2Proof.Machine
end

