-- ==== Sys2Proof/Machine/Ipv4.lean ====
section
/-! DEFINITION. The IPv4 packet codec (spec/43_ipv4.md R120 to R127). -/

namespace Sys2Proof.Machine

/-- `ip4_hdr_bytes(regs, ck)` (R120): byte 0 is the constant 0x45, IP4_VER_IHL and IP4_HEADER_CHECKSUM are not read. -/
def ip4HdrBytes (r : Ip4Regs) (ck : BitVec 16) : List Byte :=
  [Config.ip4VerIhlByte, r.dscpEcn] ++ be 2 r.totalLength ++ be 2 r.id ++ be 2 r.flagsFrag ++ [r.ttl, r.protocol]
    ++ be 2 ck ++ be 4 r.src ++ be 4 r.dst

/-- `ip4_checksum(regs)` (R121): the checksum of the 20 header bytes with a zero checksum field. -/
def ip4Checksum (r : Ip4Regs) : BitVec 16 := checksum (ip4HdrBytes r 0)

/-- The header fields IP4.DEC reads from the first 20 bytes, none of them validated (R123, R125). -/
def ip4RegsOf (m : Memory) : Ip4Regs where
  verIhl         := byteAt m 0
  dscpEcn        := byteAt m 1
  totalLength    := fromBe 16 (slice m 2 4)
  id             := fromBe 16 (slice m 4 6)
  flagsFrag      := fromBe 16 (slice m 6 8)
  ttl            := byteAt m 8
  protocol       := byteAt m 9
  headerChecksum := fromBe 16 (slice m 10 12)
  src            := fromBe 32 (slice m 12 16)
  dst            := fromBe 32 (slice m 16 20)

/-- The IPv4 registers IP4.ENC serialises: IP4_TOTAL_LENGTH is `trunc_16(20 + LEN)` first (R122). -/
def ip4RegsForEnc (s : State) : Ip4Regs :=
  { s.ip4 with totalLength := BitVec.ofNat 16 (Config.ip4HdrLen + s.len) }

/-- IP4.ENC (R122): writes IP4_TOTAL_LENGTH and the buffer; neither IP4_HEADER_CHECKSUM nor CSUM_RESULT. -/
def execIp4Enc (s : State) : Result :=
  requireRoom Config.bufMax Config.ip4HdrLen s
    (complete ((s.withIp4 (ip4RegsForEnc s)).withBuf
      (Memory.prepend s.buf (ip4HdrBytes (ip4RegsForEnc s) (ip4Checksum (ip4RegsForEnc s))))))

/-- IP4.DEC (R123): the payload starts at byte 20 whatever the IHL says. -/
def execIp4Dec (s : State) : Result :=
  requireLen Config.ip4HdrLen .errPacketTooSmall s
    (complete ((s.withIp4 (ip4RegsOf s.buf)).withBuf (Memory.strip s.buf Config.ip4HdrLen)))

/-- IP4.CSUM (R124): IP4_TOTAL_LENGTH is used as stored. -/
def execIp4Csum (s : State) : Result := complete (s.withCsumResult (ip4Checksum s.ip4))

end Sys2Proof.Machine
end

