-- ==== Sys2Proof/Machine/Tcp.lean ====
section
/-! DEFINITION. The TCP segment codec (spec/44_tcp.md R135 to R141). -/

namespace Sys2Proof.Machine

/-- `tcp_hdr_bytes(regs, ck)` (R135): byte 12 is the constant 0x50, TCP_DATA_OFFSET is not read. -/
def tcpHdrBytes (r : TcpRegs) (ck : BitVec 16) : List Byte :=
  be 2 r.srcPort ++ be 2 r.dstPort ++ be 4 r.seq ++ be 4 r.ack ++ [Config.tcpDataOffsetByte, r.flags]
    ++ be 2 r.window ++ be 2 ck ++ be 2 r.urgent

/-- `tcp_pseudo_header(src_ip, dst_ip, plen)` (R136), for `20 + plen <= 65535`; byte 9 is the literal 6. -/
def tcpPseudoHeader (src dst : BitVec 32) (plen : Nat) : List Byte :=
  be 4 src ++ be 4 dst ++ [0#8, Config.protoTcp] ++ be 2 (BitVec.ofNat 16 (Config.tcpHdrLen + plen))

/-- `tcp_checksum(regs, payload, src_ip, dst_ip)` (R137): the checksum field is zero whatever TCP_CHECKSUM holds. -/
def tcpChecksum (r : TcpRegs) (payload : List Byte) (src dst : BitVec 32) : BitVec 16 :=
  checksum (tcpPseudoHeader src dst payload.length ++ tcpHdrBytes r 0 ++ payload)

/-- The data offset TCP.DEC reads: bits 7:4 of byte 12 (R139). -/
def dataOffsetOf (m : Memory) : BitVec 4 := (byteAt m 12).extractLsb' 4 4

/-- The header fields TCP.DEC reads from the first 20 bytes, none of them validated (R139, R141). -/
def tcpRegsOf (m : Memory) : TcpRegs where
  srcPort    := fromBe 16 (slice m 0 2)
  dstPort    := fromBe 16 (slice m 2 4)
  seq        := fromBe 32 (slice m 4 8)
  ack        := fromBe 32 (slice m 8 12)
  dataOffset := dataOffsetOf m
  flags      := byteAt m 13
  window     := fromBe 16 (slice m 14 16)
  checksum   := fromBe 16 (slice m 16 18)
  urgent     := fromBe 16 (slice m 18 20)

/-- TCP.ENC (R138): TCP_CHECKSUM is emitted as stored. -/
def execTcpEnc (s : State) : Result :=
  requireRoom Config.bufMax Config.tcpHdrLen s
    (complete (s.withBuf (Memory.prepend s.buf (tcpHdrBytes s.tcp s.tcp.checksum))))

/-- TCP.DEC (R139): the payload starts at byte `4 * doff`, for every doff from 0 to 15 (D16). -/
def execTcpDec (s : State) : Result :=
  requireLen Config.tcpHdrLen .errSegmentTooSmall s
    (complete ((s.withTcp (tcpRegsOf s.buf)).withBuf (Memory.strip s.buf (4 * (dataOffsetOf s.buf).toNat))))

/-- TCP.CSUM (R140): the addresses are IP4_SRC and IP4_DST, the payload is the buffer. -/
def execTcpCsum (s : State) : Result :=
  requireRoom Config.bufMax Config.tcpHdrLen s
    (complete (s.withCsumResult (tcpChecksum s.tcp s.buf s.ip4.src s.ip4.dst)))

end Sys2Proof.Machine
end

