-- ==== Sys2Proof/Machine/Dispatch.lean ====
section
/-! DEFINITION. One arm per command, each a call of its meaning. -/

namespace Sys2Proof.Machine

def exec (i : Instr) (s : State) : Host.Outcome State Fault Refusal :=
  match i with
  | .nop => Sys2Proof.Machine.execNop s
  | .rst => Sys2Proof.Machine.execRst s
  | .wr r v => Sys2Proof.Machine.execWr r v s
  | .rd r => Sys2Proof.Machine.execRd r s
  | .mov d r => Sys2Proof.Machine.execMov d r s
  | .bclr => Sys2Proof.Machine.execBclr s
  | .bpush n v => Sys2Proof.Machine.execBpush n v s
  | .brd x => Sys2Proof.Machine.execBrd x s
  | .bwr x b => Sys2Proof.Machine.execBwr x b s
  | .csumBuf => Sys2Proof.Machine.execCsumBuf s
  | .ethEnc => Sys2Proof.Machine.execEthEnc s
  | .ethDec => Sys2Proof.Machine.execEthDec s
  | .ip4Enc => Sys2Proof.Machine.execIp4Enc s
  | .ip4Dec => Sys2Proof.Machine.execIp4Dec s
  | .ip4Csum => Sys2Proof.Machine.execIp4Csum s
  | .tcpEnc => Sys2Proof.Machine.execTcpEnc s
  | .tcpDec => Sys2Proof.Machine.execTcpDec s
  | .tcpCsum => Sys2Proof.Machine.execTcpCsum s
  | .fsmRcvSyn => Sys2Proof.Machine.execFsmRcvSyn s
  | .fsmRcvSynack => Sys2Proof.Machine.execFsmRcvSynack s
  | .fsmRcvAck => Sys2Proof.Machine.execFsmRcvAck s
  | .fsmRcvFin => Sys2Proof.Machine.execFsmRcvFin s
  | .fsmRcvRst => Sys2Proof.Machine.execFsmRcvRst s
  | .fsmSndSyn => Sys2Proof.Machine.execFsmSndSyn s
  | .fsmSndFin => Sys2Proof.Machine.execFsmSndFin s
  | .fsmSndAck => Sys2Proof.Machine.execFsmSndAck s

end Sys2Proof.Machine
end

