-- ==== Sys2Proof/Machine/Step.lean ====
section
/-! DEFINITION. One step of the block (spec/00_scope.md R7): the host's next command word, decoded and executed whole. -/

namespace Sys2Proof.Machine

/-- One step (R7, R65): take the host's next word; the command it selects is executed, a word that selects none is
illegal. With no word left nothing happens (R178; log 1, DESIGN CHOICE). -/
def step (s : State) : Host.Outcome State Fault Refusal :=
  match s.takeCommand with
  | none => .next s
  | some (w, s') =>
    match decode w with
    | .instr i => exec i s'
    | .illegal _ => illegalCommand s'

/-- The spec's own form of a step, of a state and a command word (R7): the host issues `w` and the block runs it. -/
def issue (w : CommandWord) (s : State) : Host.Outcome State Fault Refusal := step (s.present w)

/-- The state in which the very next step runs the word that `nbits` and `w` give: the host issues it next (log 1, 6). -/
def State.withFetchWord (s : State) (nbits w : Nat) : State := s.present (tableWord nbits w)

end Sys2Proof.Machine
end

