-- ==== Sys2Proof/Machine/Pseudo.lean ====
section
/-! DEFINITION. The pseudo-commands of the textual form (spec/30_encoding.md R69): each is a list of commands, with no
encoding and no atomicity of its own (D27), and the execution of such a list. -/

namespace Sys2Proof.Machine

/-- Executes commands one after another (R50). -/
def execSeq : List Instr → State → Result
  | [], s => .next s
  | i :: is, s =>
    match exec i s with
    | .next t => execSeq is t
    | .fault r => .fault r
    | .refused r => .refused r

/-- `CLR rd` (R69). -/
def clr (rd : BitVec 8) : List Instr := [.wr rd 0]

/-- One BPUSH of a group of at most 6 bytes, first byte most significant (R69, R86). -/
def pushGroup (bs : List Byte) : Instr := .bpush (BitVec.ofNat 8 bs.length) (fromBe 48 bs)

/-- The BPUSH commands of `BLOAD`: groups of 6, the last one of what is left (R69). -/
def pushGroups : List Byte → List Instr
  | a :: b :: c :: d :: e :: f :: rest => pushGroup [a, b, c, d, e, f] :: pushGroups rest
  | [] => []
  | bs => [pushGroup bs]

/-- `BLOAD b0 b1 ...` (R69). -/
def bload (bs : List Byte) : List Instr := .bclr :: pushGroups bs

/-- `TCP.SEAL` (R69, R196): TCP.CSUM ; MOV TCP_CHECKSUM, CSUM_RESULT ; TCP.ENC. -/
def tcpSeal : List Instr := [.tcpCsum, .mov RegName.tcpChecksum.index RegName.csumResult.index, .tcpEnc]

/-- `EVENT name`: the FSM command of an event (R69, R150). -/
def eventCommand : Event → Instr
  | .rcvSyn => .fsmRcvSyn
  | .rcvSynack => .fsmRcvSynack
  | .rcvAck => .fsmRcvAck
  | .rcvFin => .fsmRcvFin
  | .rcvRst => .fsmRcvRst
  | .sndSyn => .fsmSndSyn
  | .sndFin => .fsmSndFin
  | .sndAck => .fsmSndAck

end Sys2Proof.Machine
end

