-- ==== Sys2Proof/Safety.lean ====
section
/-! DEFINITION. The terms claims are stated in: the invariants of a run (spec/10_state.md R26, spec/45_tcp_fsm.md R164),
what a safe step is, and, as tables transcribed from the spec, which command may write which register (R11) and end with
which outcome (spec/60_exceptions.md R170). -/

namespace Sys2Proof.Machine

/-- The invariant of R26(a): 0 <= LEN <= BUF_MAX. R26(b), (c) and (d) hold by the types of the fields. -/
abbrev State.Inv (s : State) : Prop := Memory.wf s.buf = true

/-- The seven TCP states that some sequence of events reaches from CLOSED (R164). -/
def TcpState.reachable : TcpState → Bool
  | .closed | .synSent | .established | .finWait1 | .closing | .closeWait | .lastAck => true
  | .listen | .synReceived | .finWait2 | .timeWait => false

/-- Both state registers hold a reachable TCP state. -/
abbrev State.FsmInv (s : State) : Prop := s.tcpState.reachable = true ∧ s.tcpPrevState.reachable = true

/-- A safe step: the machine goes on (R173). -/
abbrev StepSafe (s : State) : Prop := ∃ t, step s = .next t

/-- The words of a format-N command: `word` selects `i`, and any other word with its OP byte is illegal, which writes
ERR_ILLEGAL_CMD to STATUS and nothing else (R61, R64, R65). -/
def OnlyWord (word : CommandWord) (i : Instr) : Prop :=
  decode word = .instr i ∧
    ∀ (w : CommandWord) (s : State), opField w = opField word → w ≠ word →
      issue w s = .next { s with status := .errIllegalCmd }

/-- The integer sum of the big-endian 16-bit words of a sequence, a trailing byte being a high byte (R100, R102). -/
def wordSum : List Byte → Nat
  | [] => 0
  | [b] => 256 * b.toNat
  | a :: b :: rest => 256 * a.toNat + b.toNat + wordSum rest

/-- The state the events lead to, one after another (R151). -/
def deltaAll (s : TcpState) (es : List Event) : TcpState := es.foldl (fun q e => (delta q e).1) s

end Sys2Proof.Machine

namespace Sys2Proof

open Machine

/-- The commands R11 lists as writers of a register, STATUS being written by every command. -/
def Instr.writesReg (i : Instr) (r : RegName) : Bool :=
  r == .status ||
  match i with
  | .nop => false
  | .rst => true
  | .wr d _ => destOfIndex d == some r
  | .rd _ => r == .dout
  | .mov d _ => destOfIndex d == some r
  | .bclr => r == .len
  | .bpush _ _ => r == .len
  | .brd _ => r == .dout
  | .bwr _ _ => false
  | .csumBuf => r == .csumResult
  | .ethEnc => r == .len
  | .ethDec => [RegName.len, .ethDst, .ethSrc, .ethType].contains r
  | .ip4Enc => [RegName.len, .ip4TotalLength].contains r
  | .ip4Dec => [RegName.len, .ip4VerIhl, .ip4DscpEcn, .ip4TotalLength, .ip4Id, .ip4FlagsFrag, .ip4Ttl, .ip4Protocol,
                  .ip4HeaderChecksum, .ip4Src, .ip4Dst].contains r
  | .ip4Csum => r == .csumResult
  | .tcpEnc => r == .len
  | .tcpDec => [RegName.len, .tcpSrcPort, .tcpDstPort, .tcpSeq, .tcpAck, .tcpDataOffset, .tcpFlags, .tcpWindow,
                  .tcpChecksum, .tcpUrgent].contains r
  | .tcpCsum => r == .csumResult
  | .fsmRcvSyn | .fsmRcvSynack | .fsmRcvAck | .fsmRcvFin => r == .tcpState || r == .tcpPrevState
  | .fsmRcvRst | .fsmSndSyn | .fsmSndFin | .fsmSndAck => r == .tcpState || r == .tcpPrevState

/-- The commands that store no byte of the buffer and do not change LEN (R42, R47). -/
def Instr.keepsBuffer : Instr → Bool
  | .nop | .wr _ _ | .rd _ | .mov _ _ | .brd _ | .csumBuf | .ip4Csum | .tcpCsum => true
  | .fsmRcvSyn | .fsmRcvSynack | .fsmRcvAck | .fsmRcvFin => true
  | .fsmRcvRst | .fsmSndSyn | .fsmSndFin | .fsmSndAck => true
  | .rst | .bclr | .bpush _ _ | .bwr _ _ | .ethEnc | .ethDec | .ip4Enc | .ip4Dec | .tcpEnc | .tcpDec => false

/-- The outcomes R170 lists for a command that a word selects. -/
def Instr.outcomes : Instr → List StatusCode
  | .nop | .rst | .bclr | .csumBuf | .ip4Csum => [.ok]
  | .wr _ _ | .rd _ | .mov _ _ => [.ok, .errBadReg]
  | .bpush _ _ | .ethEnc | .ip4Enc | .tcpEnc | .tcpCsum => [.ok, .errBufOverflow]
  | .brd _ | .bwr _ _ => [.ok, .errBadIndex]
  | .ethDec => [.ok, .errFrameTooSmall]
  | .ip4Dec => [.ok, .errPacketTooSmall]
  | .tcpDec => [.ok, .errSegmentTooSmall]
  | .fsmRcvSyn | .fsmRcvSynack | .fsmRcvAck | .fsmRcvFin => [.ok, .unexpectedEvent]
  | .fsmSndSyn | .fsmSndFin => [.ok, .unexpectedEvent]
  | .fsmRcvRst | .fsmSndAck => [.ok]

/-- The commands that read STATUS: RD and MOV with the index of STATUS as their source (R24). -/
def Instr.readsStatus : Instr → Bool
  | .rd rs => rs == RegName.status.index
  | .mov _ rs => rs == RegName.status.index
  | .nop | .rst | .wr _ _ | .bclr | .bpush _ _ | .brd _ | .bwr _ _ | .csumBuf => false
  | .ethEnc | .ethDec | .ip4Enc | .ip4Dec | .ip4Csum | .tcpEnc | .tcpDec | .tcpCsum => false
  | .fsmRcvSyn | .fsmRcvSynack | .fsmRcvAck | .fsmRcvFin => false
  | .fsmRcvRst | .fsmSndSyn | .fsmSndFin | .fsmSndAck => false

end Sys2Proof
end

