-- ==== Sys2Proof/Certificates/Slice0/Obligations.lean ====
section
/-! DEFINITION. The statements for the provers, in the order of the spec's files: encoding, steps and runs, state,
host access, checksum engine, Ethernet, IPv4, TCP, state machine, whole-machine rules, pseudo-commands. -/

open Sys2Proof Sys2Proof.Machine

/-! ## Command words (spec/30_encoding.md) -/

/-- R68's own example words, and one word of each other family written out from R63, decode to the command they stand
for; words with a reserved bit set, a bad BPUSH count or an unassigned OP byte select none. -/
def Obligations.DecodeReadsSpecWords : Prop :=
  decode 0x0212000000000800#64 = .instr (.wr 0x12#8 0x0800#48) ∧
  decode 0x0437000000000003#64 = .instr (.mov 0x37#8 0x03#8) ∧
  decode 0x090400000001F203#64 = .instr (.bpush 4#8 0x0001F203#48) ∧
  decode 0x0BA3000000000010#64 = .instr (.bwr 16#16 0xA3#8) ∧
  decode 0x0A0000000000000A#64 = .instr (.brd 10#16) ∧
  decode 0x0304000000000000#64 = .instr (.rd 0x04#8) ∧
  decode 0x1000000000000000#64 = .instr .csumBuf ∧
  decode 0x2100000000000000#64 = .instr .ethDec ∧
  decode 0x3200000000000000#64 = .instr .ip4Csum ∧
  decode 0x4000000000000000#64 = .instr .tcpEnc ∧
  decode 0x5500000000000000#64 = .instr .fsmSndSyn ∧
  decode 0x0000000000000001#64 = .illegal .nonzeroImm ∧
  decode 0x0001000000000000#64 = .illegal .nonzeroA ∧
  decode 0x0907000000000001#64 = .illegal .badPush ∧
  decode 0x0600000000000000#64 = .illegal .unassignedOpcode

/-- Decoding the word of a well-formed command gives the command back, with every operand at every value the encoding
admits (R61, R63, R66). -/
def Obligations.DecodeInvertsEncode : Prop :=
  ∀ i : Instr, i.wellFormed = true → decode (encode i) = .instr i

/-- A word that selects a command is that command's word: no bit of it is ignored ("Reserved bits are never ignored",
R64), and the command is well formed. -/
def Obligations.EncodeInvertsDecode : Prop :=
  ∀ (w : CommandWord) (i : Instr), decode w = .instr i → encode i = w ∧ i.wellFormed = true

/-- The decoder selects as the opcode map says (R63): 26 rows; no word selects two of them; a word that selects a row
decodes to that row's command; a word that selects none is illegal (R64, R65: "every 64-bit word either selects exactly
one command or is illegal"). -/
def Obligations.DecoderFollowsOpcodeMap : Prop :=
  opcodeMap.length = 26 ∧
  ∀ w : CommandWord,
    (∀ r₁ ∈ opcodeMap, ∀ r₂ ∈ opcodeMap, r₁.selects w = true → r₂.selects w = true → r₁ = r₂) ∧
    (∀ r ∈ opcodeMap, r.selects w = true → ∃ i, decode w = .instr i ∧ i.mnemonic = r.mnemonic) ∧
    ((∀ r ∈ opcodeMap, r.selects w = false) → ∃ e, decode w = .illegal e)

/-- The unassigned OP bytes of R65 select no command whatever the other fields are, and a word that selects no command
ends with ERR_ILLEGAL_CMD: STATUS is 0x10 and nothing else changes. -/
def Obligations.IllegalWordWritesOnlyStatus : Prop :=
  (∀ w : CommandWord,
    (∀ op ∈ [0x00, 0x01, 0x02, 0x03, 0x04, 0x08, 0x09, 0x0A, 0x0B, 0x10, 0x20, 0x21, 0x30, 0x31, 0x32, 0x40, 0x41,
             0x42, 0x50, 0x51, 0x52, 0x53, 0x54, 0x55, 0x56, 0x57], (opField w).toNat ≠ op) →
      ∃ e, decode w = .illegal e) ∧
  ∀ (w : CommandWord) (s : State), (∀ i, decode w ≠ .instr i) →
    issue w s = .next { s with status := .errIllegalCmd } ∧ StatusCode.errIllegalCmd.code = 0x10#8

/-! ## Steps and runs -/

/-- A step runs the command the host's next word selects, with that word taken from the port and nothing else around
it (R7). With no word left nothing happens: that clause is the model's choice (log 1, from R178). -/
def Obligations.StepRunsDecodedCommand : Prop :=
  (∀ (s : State) (w : CommandWord) (rest : List CommandWord) (i : Instr),
    s.port = w :: rest → decode w = .instr i → step s = exec i { s with port := rest }) ∧
  (∀ (s : State) (w : CommandWord) (i : Instr), decode w = .instr i → issue w s = exec i s) ∧
  (∀ s : State, s.port = [] → step s = .next s)

/-- `step` is total (R7): every command in every state ends with a next state and a Response whose outcome is the code
in STATUS and whose data is DOUT; no command stops the block ("nothing in this core is fatal", R173). In the last clause
a step with no word left is the model's idle one (log 1). -/
def Obligations.EveryCommandCompletes : Prop :=
  (∀ (w : CommandWord) (s : State), ∃ t, issue w s = .next t ∧
    (t.response.outcome.setWidth 48 = t.readReg .status ∧ t.response.data = t.readReg .dout)) ∧
  (∀ (i : Instr) (s : State), ∃ t, exec i s = .next t) ∧
  ∀ s : State, StepSafe s

/-- A run of as many steps as a host's program has commands executes the commands in issue order, each on the state its
predecessor left, and leaves the words after the program in the port (R50). Where the words stand is the model's choice
(log 1). -/
def Obligations.RunExecutesProgramInOrder : Prop :=
  ∀ (prog : List Instr) (rest : List CommandWord) (s : State),
    (∀ i ∈ prog, i.wellFormed = true) →
    ∃ t, Sys2Proof.core.run prog.length { s with port := prog.map encode ++ rest } = .next t ∧
      execSeq prog { s with port := rest } = .next t ∧ t.port = rest

/-! ## State (spec/10_state.md) -/

/-- What reset leaves (R25, R190): every register reads 0, TCP_STATE and TCP_PREV_STATE are CLOSED, STATUS is OK, the
buffer is empty. -/
def Obligations.ResetLeavesSpecValues : Prop :=
  (∀ r : RegName, State.reset.readReg r = 0) ∧ State.reset.tcpState = .closed ∧ State.reset.tcpPrevState = .closed ∧
    State.reset.status = .ok ∧ State.reset.buf = []

/-- Both invariants hold after reset. -/
def Obligations.ResetMeetsInvariants : Prop := State.reset.Inv ∧ State.reset.FsmInv

/-- R26(a): from every state with 0 <= LEN <= BUF_MAX, a step leaves 0 <= LEN <= BUF_MAX. -/
def Obligations.StepKeepsBufferWithinCapacity : Prop :=
  ∀ s t : State, s.Inv → step s = .next t → t.Inv

/-- R164 as an invariant: from every state whose state registers hold one of the seven reachable TCP states, a step
leaves them so; LISTEN, SYN_RECEIVED, FIN_WAIT_2 and TIME_WAIT are never entered. -/
def Obligations.StepKeepsReachableTcpStates : Prop :=
  ∀ s t : State, s.FsmInv → step s = .next t → t.FsmInv

/-- R26(b), (c), (d): every register's value fits its width, the state codes are at most 10, STATUS reads as one of the
nine codes; and within the capacity LEN reads as the number of valid bytes. -/
def Obligations.RegisterValuesFitTheirWidths : Prop :=
  ∀ s : State,
    (∀ r : RegName, (s.readReg r).toNat < 2 ^ r.width) ∧
    (s.readReg .tcpState).toNat ≤ 10 ∧ (s.readReg .tcpPrevState).toNat ≤ 10 ∧
    (s.readReg .status).toNat ∈ [0x00, 0x01, 0x02, 0x03, 0x04, 0x10, 0x11, 0x12, 0x13] ∧
    (s.Inv → (s.readReg .len).toNat = s.buf.length)

/-- An index names at most one register, every register has its index, and 28 of the 256 indices name one: those of
R11 and no other. -/
def Obligations.RegisterIndicesNameOneRegister : Prop :=
  (∀ (i : BitVec 8) (r : RegName), regOfIndex i = some r ↔ r.index = i) ∧
  (∀ i : BitVec 8, regOfIndex i = none ↔
    (0x06 ≤ i.toNat ∧ i.toNat ≤ 0x0F) ∨ (0x13 ≤ i.toNat ∧ i.toNat ≤ 0x1F) ∨ (0x2A ≤ i.toNat ∧ i.toNat ≤ 0x2F) ∨
      0x39 ≤ i.toNat)

/-- Writing a read-write register stores the low W bits of the datum, and registers do not alias: every other register
reads as before (R11, R41). -/
def Obligations.RegisterWriteReadsBack : Prop :=
  ∀ (s : State) (r : RegName) (v : Datum), r.access = .rw →
    ((s.writeReg r v).readReg r).toNat = v.toNat % 2 ^ r.width ∧
    ∀ r' : RegName, r' ≠ r → (s.writeReg r v).readReg r' = s.readReg r'

/-! ## Host access (spec/40_host_access.md) -/

/-- R80: NOP changes STATUS only; any other word with its OP byte is illegal. -/
def Obligations.NopWritesOnlyStatus : Prop :=
  (∀ s : State, exec .nop s = .next { s with status := .ok }) ∧ OnlyWord 0x0000000000000000#64 .nop

/-- R81: RST leaves every piece of the block's state at its reset value of R25; any other word with its OP byte is
illegal and resets nothing. -/
def Obligations.RstResetsTheBlock : Prop :=
  (∀ s : State, ∃ t, exec .rst s = .next t ∧ (∀ r : RegName, t.readReg r = 0) ∧ t.tcpState = .closed ∧
    t.tcpPrevState = .closed ∧ t.status = .ok ∧ t.buf = []) ∧
  OnlyWord 0x0100000000000000#64 .rst

/-- R82: WR stores the low W bits of its datum in the register `rd` names and changes nothing else but STATUS; a missing
or read-only register is ERR_BAD_REG and nothing else changes; every word with OP 0x02 is a WR. -/
def Obligations.WrWritesOneRegister : Prop :=
  (∀ (rd : BitVec 8) (value : Datum) (s : State) (r : RegName), regOfIndex rd = some r → r.access = .rw →
    ∃ t, exec (.wr rd value) s = .next t ∧ (t.readReg r).toNat = value.toNat % 2 ^ r.width ∧
      (∀ r' : RegName, r' ≠ r → r' ≠ .status → t.readReg r' = s.readReg r') ∧ t.status = .ok ∧
      (∀ a : Nat, Memory.read t.buf a = Memory.read s.buf a) ∧ t.port = s.port) ∧
  (∀ (rd : BitVec 8) (value : Datum) (s : State), (∀ r : RegName, regOfIndex rd = some r → r.access = .ro) →
    exec (.wr rd value) s = .next { s with status := .errBadReg }) ∧
  ∀ w : CommandWord, opField w = 0x02#8 → decode w = .instr (.wr (aField w) (immField w))

/-- R83: RD puts the zero-extended register into DOUT, STATUS read before this command's own write; a missing register
is ERR_BAD_REG, a non-zero IMM is ERR_ILLEGAL_CMD, and then DOUT is unchanged. -/
def Obligations.RdReadsAnyRegister : Prop :=
  (∀ (rs : BitVec 8) (s : State) (r : RegName), regOfIndex rs = some r →
    exec (.rd rs) s = .next { s with dout := s.readReg r, status := .ok }) ∧
  (∀ (rs : BitVec 8) (s : State), regOfIndex rs = none → exec (.rd rs) s = .next { s with status := .errBadReg }) ∧
  ∀ (w : CommandWord) (s : State), opField w = 0x03#8 →
    (immField w = 0 → decode w = .instr (.rd (aField w))) ∧
    (immField w ≠ 0 → issue w s = .next { s with status := .errIllegalCmd })

/-- R84: MOV stores the source's value, zero-extended and truncated to the destination's width, in the destination and
changes nothing else but STATUS (DOUT neither); a missing register or a read-only destination is ERR_BAD_REG; a word with
IMM[47:8] not zero is ERR_ILLEGAL_CMD. -/
def Obligations.MovCopiesOneRegister : Prop :=
  (∀ (rd rs : BitVec 8) (s : State) (d r : RegName), regOfIndex rd = some d → d.access = .rw → regOfIndex rs = some r →
    ∃ t, exec (.mov rd rs) s = .next t ∧ (t.readReg d).toNat = (s.readReg r).toNat % 2 ^ d.width ∧
      (∀ r' : RegName, r' ≠ d → r' ≠ .status → t.readReg r' = s.readReg r') ∧ t.status = .ok ∧
      (∀ a : Nat, Memory.read t.buf a = Memory.read s.buf a) ∧ t.port = s.port) ∧
  (∀ (rd rs : BitVec 8) (s : State),
    ((∀ d : RegName, regOfIndex rd = some d → d.access = .ro) ∨ regOfIndex rs = none) →
    exec (.mov rd rs) s = .next { s with status := .errBadReg }) ∧
  ∀ (w : CommandWord) (s : State), opField w = 0x04#8 →
    ((immField w).toNat < 2 ^ 8 → decode w = .instr (.mov (aField w) ((immField w).setWidth 8))) ∧
    (2 ^ 8 ≤ (immField w).toNat → issue w s = .next { s with status := .errIllegalCmd })

/-- R85: BCLR empties the buffer and leaves every other register. -/
def Obligations.BclrEmptiesBuffer : Prop :=
  (∀ s : State, exec .bclr s = .next { s with buf := [], status := .ok }) ∧ OnlyWord 0x0800000000000000#64 .bclr

/-- R86, R45: BPUSH appends its n bytes at index LEN, `IMM[8n-1:8n-8]` first; if they do not all fit none is appended;
a count of 0 or above 6, or a bit above the bytes, makes the word illegal. -/
def Obligations.BpushAppendsBytes : Prop :=
  (∀ (n : BitVec 8) (value : Datum) (s : State), 1 ≤ n.toNat → n.toNat ≤ 6 → value.toNat < 2 ^ (8 * n.toNat) →
    (s.buf.length + n.toNat ≤ Config.bufMax →
      exec (.bpush n value) s = .next { s with
        buf := s.buf ++ (List.range n.toNat).map (fun k => value.extractLsb' (8 * (n.toNat - 1 - k)) 8)
        status := .ok }) ∧
    (Config.bufMax < s.buf.length + n.toNat →
      exec (.bpush n value) s = .next { s with status := .errBufOverflow })) ∧
  ∀ (w : CommandWord) (s : State), opField w = 0x09#8 →
    ((1 ≤ (aField w).toNat ∧ (aField w).toNat ≤ 6 ∧ (immField w).toNat < 2 ^ (8 * (aField w).toNat)) →
      decode w = .instr (.bpush (aField w) (immField w))) ∧
    (¬ (1 ≤ (aField w).toNat ∧ (aField w).toNat ≤ 6 ∧ (immField w).toNat < 2 ^ (8 * (aField w).toNat)) →
      issue w s = .next { s with status := .errIllegalCmd })

/-- R87: BRD puts the byte at a valid index into DOUT, zero-extended; an index at or above LEN is ERR_BAD_INDEX; a word
with A or IMM[47:16] not zero is ERR_ILLEGAL_CMD; on either DOUT is unchanged. -/
def Obligations.BrdReadsOneByte : Prop :=
  (∀ (idx : BitVec 16) (s : State) (b : Byte), s.buf[idx.toNat]? = some b →
    exec (.brd idx) s = .next { s with dout := b.setWidth 48, status := .ok }) ∧
  (∀ (idx : BitVec 16) (s : State), s.buf.length ≤ idx.toNat →
    exec (.brd idx) s = .next { s with status := .errBadIndex }) ∧
  ∀ (w : CommandWord) (s : State), opField w = 0x0A#8 →
    ((aField w = 0 ∧ (immField w).toNat < 2 ^ 16) → decode w = .instr (.brd ((immField w).setWidth 16))) ∧
    (¬ (aField w = 0 ∧ (immField w).toNat < 2 ^ 16) → issue w s = .next { s with status := .errIllegalCmd })

/-- R88: BWR overwrites the byte at a valid index, every other byte and LEN as before; an index at or above LEN is
ERR_BAD_INDEX; a word with IMM[47:16] not zero is ERR_ILLEGAL_CMD. -/
def Obligations.BwrOverwritesOneByte : Prop :=
  (∀ (idx : BitVec 16) (byte : Byte) (s : State), idx.toNat < s.buf.length →
    ∃ m : Memory, exec (.bwr idx byte) s = .next { s with buf := m, status := .ok } ∧ m.length = s.buf.length ∧
      Memory.read m idx.toNat = some byte ∧
      ∀ a : Nat, a ≠ idx.toNat → Memory.read m a = Memory.read s.buf a) ∧
  (∀ (idx : BitVec 16) (byte : Byte) (s : State), s.buf.length ≤ idx.toNat →
    exec (.bwr idx byte) s = .next { s with status := .errBadIndex }) ∧
  ∀ (w : CommandWord) (s : State), opField w = 0x0B#8 →
    ((immField w).toNat < 2 ^ 16 → decode w = .instr (.bwr ((immField w).setWidth 16) (aField w))) ∧
    (2 ^ 16 ≤ (immField w).toNat → issue w s = .next { s with status := .errIllegalCmd })

/-! ## The checksum engine (spec/41_checksum.md) -/

/-- R101: the fold is a fixed point of the loop after two steps (more steps change nothing), its upper half is 0, it is 0
exactly if the accumulator is, and it is congruent to the accumulator modulo 0xFFFF. -/
def Obligations.FoldLeavesNoCarry : Prop :=
  ∀ acc : Acc,
    (fold acc).extractLsb' 16 16 = 0 ∧ (∀ n : Nat, 2 ≤ n → foldLoop n acc = fold acc) ∧
    ((fold acc).toNat = 0 ↔ acc.toNat = 0) ∧ (fold acc).toNat % 0xFFFF = acc.toNat % 0xFFFF

/-- R102: an odd input and the input padded with one zero byte have the same checksum; a one-byte input [b] has checksum
NOT (b ++ 0x00). -/
def Obligations.OddInputPadsWithZeroByte : Prop :=
  (∀ s : List Byte, s.length % 2 = 1 → checksum (s ++ [0#8]) = checksum s) ∧
  ∀ b : Byte, checksum [b] = ~~~ (b ++ 0x00#8)

/-- R103: an all-zero input of any length, the empty one included, has checksum 0xFFFF, not 0x0000. -/
def Obligations.ZeroInputGivesAllOnes : Prop :=
  ∀ n : Nat, checksum (List.replicate n 0#8) = 0xFFFF#16

/-- R104: for inputs up to 131072 bytes the 32-bit accumulator holds the exact integer sum of the words. -/
def Obligations.AccumulatorHoldsExactSum : Prop :=
  ∀ s : List Byte, s.length ≤ 131072 → (sumWords 0 s).toNat = wordSum s

/-- R100, R101: for inputs up to 131072 bytes the checksum is 0xFFFF minus the one's-complement sum S of the words, S
being 0 if their integer sum is 0 and otherwise the value in 1..0xFFFF congruent to it modulo 0xFFFF. -/
def Obligations.ChecksumIsOnesComplementOfSum : Prop :=
  ∀ s : List Byte, s.length ≤ 131072 →
    ∃ S : Nat, (checksum s).toNat = 0xFFFF - S ∧ (wordSum s = 0 → S = 0) ∧
      (wordSum s ≠ 0 → 1 ≤ S ∧ S ≤ 0xFFFF ∧ S % 0xFFFF = wordSum s % 0xFFFF)

/-- R105, the self-verification identity: writing a sequence's checksum back into its own zeroed field at an even index
makes the checksum 0x0000. -/
def Obligations.EmbeddedChecksumVerifiesToZero : Prop :=
  ∀ (s : List Byte) (j : Nat), s.length ≤ 131072 → j % 2 = 0 → j + 1 < s.length →
    s[j]? = some 0#8 → s[j + 1]? = some 0#8 →
    checksum ((s.set j ((checksum s).extractLsb' 8 8)).set (j + 1) ((checksum s).extractLsb' 0 8)) = 0x0000#16

/-- R106: CSUM.BUF puts the checksum of the valid buffer content into CSUM_RESULT and changes nothing else but STATUS. -/
def Obligations.CsumBufSumsTheBuffer : Prop :=
  (∀ s : State, exec .csumBuf s = .next { s with csumResult := checksum s.buf, status := .ok }) ∧
  OnlyWord 0x1000000000000000#64 .csumBuf

/-! ## The Ethernet codec (spec/42_ethernet.md) -/

/-- R110, R111: ETH.ENC puts the 14 header bytes of R110 before the buffer content and writes no register but LEN and
STATUS; a frame that would pass BUF_MAX is ERR_BUF_OVERFLOW and nothing else changes. -/
def Obligations.EthEncPrependsHeader : Prop :=
  (∀ s : State, s.buf.length + 14 ≤ Config.bufMax →
    exec .ethEnc s = .next { s with
      buf := [s.eth.dst.extractLsb' 40 8, s.eth.dst.extractLsb' 32 8, s.eth.dst.extractLsb' 24 8,
              s.eth.dst.extractLsb' 16 8, s.eth.dst.extractLsb' 8 8, s.eth.dst.extractLsb' 0 8,
              s.eth.src.extractLsb' 40 8, s.eth.src.extractLsb' 32 8, s.eth.src.extractLsb' 24 8,
              s.eth.src.extractLsb' 16 8, s.eth.src.extractLsb' 8 8, s.eth.src.extractLsb' 0 8,
              s.eth.etherType.extractLsb' 8 8, s.eth.etherType.extractLsb' 0 8] ++ s.buf
      status := .ok }) ∧
  (∀ s : State, Config.bufMax < s.buf.length + 14 →
    exec .ethEnc s = .next { s with status := .errBufOverflow }) ∧
  OnlyWord 0x2000000000000000#64 .ethEnc

/-- R112: ETH.DEC reads the three fields from the first 14 bytes and leaves the rest as the buffer; with fewer than 14
bytes it is ERR_FRAME_TOO_SMALL and nothing else changes. -/
def Obligations.EthDecStripsHeader : Prop :=
  (∀ (s : State) (b0 b1 b2 b3 b4 b5 b6 b7 b8 b9 b10 b11 b12 b13 : Byte) (rest : List Byte),
    s.buf = [b0, b1, b2, b3, b4, b5, b6, b7, b8, b9, b10, b11, b12, b13] ++ rest →
    exec .ethDec s = .next { s with
      eth := { dst := b0 ++ b1 ++ b2 ++ b3 ++ b4 ++ b5, src := b6 ++ b7 ++ b8 ++ b9 ++ b10 ++ b11,
               etherType := b12 ++ b13 }
      buf := rest
      status := .ok }) ∧
  (∀ s : State, s.buf.length < 14 → exec .ethDec s = .next { s with status := .errFrameTooSmall }) ∧
  OnlyWord 0x2100000000000000#64 .ethDec

/-- R114: ETH.ENC ; ETH.DEC restores the three registers and the buffer from every state with room for the frame, and
ETH.DEC ; ETH.ENC restores the buffer from every state with LEN >= 14. -/
def Obligations.EthRoundTrip : Prop :=
  (∀ s : State, s.buf.length + 14 ≤ Config.bufMax →
    ∃ u, exec .ethEnc s = .next u ∧ u.status = .ok ∧ exec .ethDec u = .next { s with status := .ok }) ∧
  (∀ s : State, s.Inv → 14 ≤ s.buf.length →
    ∃ u t, exec .ethDec s = .next u ∧ u.status = .ok ∧ exec .ethEnc u = .next t ∧ t.status = .ok ∧ t.buf = s.buf)

/-! ## The IPv4 codec (spec/43_ipv4.md) -/

/-- R120, R121, R122: IP4.ENC sets IP4_TOTAL_LENGTH to 20 + LEN and puts the 20 header bytes before the buffer content,
byte 0 the constant 0x45, the checksum field the checksum of those bytes with a zero field; it writes no other register
but LEN and STATUS. A packet that would pass BUF_MAX is ERR_BUF_OVERFLOW and nothing else changes. -/
def Obligations.Ip4EncPrependsHeader : Prop :=
  (∀ (s : State) (hdr : BitVec 16 → List Byte) (tl : BitVec 16),
    tl = BitVec.ofNat 16 (20 + s.buf.length) →
    (∀ ck : BitVec 16, hdr ck =
      [0x45#8, s.ip4.dscpEcn, tl.extractLsb' 8 8, tl.extractLsb' 0 8, s.ip4.id.extractLsb' 8 8, s.ip4.id.extractLsb' 0 8,
       s.ip4.flagsFrag.extractLsb' 8 8, s.ip4.flagsFrag.extractLsb' 0 8, s.ip4.ttl, s.ip4.protocol,
       ck.extractLsb' 8 8, ck.extractLsb' 0 8,
       s.ip4.src.extractLsb' 24 8, s.ip4.src.extractLsb' 16 8, s.ip4.src.extractLsb' 8 8, s.ip4.src.extractLsb' 0 8,
       s.ip4.dst.extractLsb' 24 8, s.ip4.dst.extractLsb' 16 8, s.ip4.dst.extractLsb' 8 8, s.ip4.dst.extractLsb' 0 8]) →
    s.buf.length + 20 ≤ Config.bufMax →
    tl.toNat = 20 + s.buf.length ∧
    exec .ip4Enc s = .next { s with
      ip4 := { s.ip4 with totalLength := tl }
      buf := hdr (checksum (hdr 0)) ++ s.buf
      status := .ok }) ∧
  (∀ s : State, Config.bufMax < s.buf.length + 20 →
    exec .ip4Enc s = .next { s with status := .errBufOverflow }) ∧
  OnlyWord 0x3000000000000000#64 .ip4Enc

/-- R123, R125: IP4.DEC reads the ten fields from the first 20 bytes, whatever they are, and leaves the rest as the
buffer, whatever the IHL and the total length say; with fewer than 20 bytes it is ERR_PACKET_TOO_SMALL and nothing else
changes. -/
def Obligations.Ip4DecStripsHeader : Prop :=
  (∀ (s : State) (b0 b1 b2 b3 b4 b5 b6 b7 b8 b9 b10 b11 b12 b13 b14 b15 b16 b17 b18 b19 : Byte) (rest : List Byte),
    s.buf = [b0, b1, b2, b3, b4, b5, b6, b7, b8, b9, b10, b11, b12, b13, b14, b15, b16, b17, b18, b19] ++ rest →
    exec .ip4Dec s = .next { s with
      ip4 := { verIhl := b0, dscpEcn := b1, totalLength := b2 ++ b3, id := b4 ++ b5, flagsFrag := b6 ++ b7, ttl := b8,
               protocol := b9, headerChecksum := b10 ++ b11, src := b12 ++ b13 ++ b14 ++ b15,
               dst := b16 ++ b17 ++ b18 ++ b19 }
      buf := rest
      status := .ok }) ∧
  (∀ s : State, s.buf.length < 20 → exec .ip4Dec s = .next { s with status := .errPacketTooSmall }) ∧
  OnlyWord 0x3100000000000000#64 .ip4Dec

/-- R121, R124: IP4.CSUM puts into CSUM_RESULT the checksum of the 20 header bytes with byte 0 = 0x45 and a zero checksum
field, IP4_TOTAL_LENGTH as stored, and changes nothing else but STATUS. -/
def Obligations.Ip4CsumSumsTheRegisters : Prop :=
  (∀ s : State, exec .ip4Csum s = .next { s with
      csumResult := checksum
        [0x45#8, s.ip4.dscpEcn, s.ip4.totalLength.extractLsb' 8 8, s.ip4.totalLength.extractLsb' 0 8,
         s.ip4.id.extractLsb' 8 8, s.ip4.id.extractLsb' 0 8, s.ip4.flagsFrag.extractLsb' 8 8,
         s.ip4.flagsFrag.extractLsb' 0 8, s.ip4.ttl, s.ip4.protocol, 0x00#8, 0x00#8,
         s.ip4.src.extractLsb' 24 8, s.ip4.src.extractLsb' 16 8, s.ip4.src.extractLsb' 8 8, s.ip4.src.extractLsb' 0 8,
         s.ip4.dst.extractLsb' 24 8, s.ip4.dst.extractLsb' 16 8, s.ip4.dst.extractLsb' 8 8, s.ip4.dst.extractLsb' 0 8]
      status := .ok }) ∧
  OnlyWord 0x3200000000000000#64 .ip4Csum

/-- R126: IP4.ENC ; IP4.DEC restores the buffer and the seven fields the encode does not override, and leaves
IP4_VER_IHL = 0x45, IP4_TOTAL_LENGTH = 20 + LEN and IP4_HEADER_CHECKSUM the checksum of the registers. -/
def Obligations.Ip4RoundTrip : Prop :=
  ∀ s : State, s.buf.length + 20 ≤ Config.bufMax →
    ∃ u t, exec .ip4Enc s = .next u ∧ u.status = .ok ∧ exec .ip4Dec u = .next t ∧ t.status = .ok ∧ t.buf = s.buf ∧
      t.ip4.totalLength.toNat = 20 + s.buf.length ∧
      t.ip4 = { s.ip4 with verIhl := 0x45#8, totalLength := t.ip4.totalLength, headerChecksum := ip4Checksum t.ip4 } ∧
      t = { s with ip4 := t.ip4, status := .ok }

/-- R126, R121: after a successful IP4.ENC the first 20 bytes of the buffer have checksum 0x0000, and IP4.CSUM gives the
checksum that was embedded. -/
def Obligations.Ip4EncodedHeaderVerifies : Prop :=
  ∀ s : State, s.buf.length + 20 ≤ Config.bufMax →
    ∃ u t, exec .ip4Enc s = .next u ∧ checksum (u.buf.take 20) = 0x0000#16 ∧ exec .ip4Csum u = .next t ∧
      Memory.read u.buf 10 = some (t.csumResult.extractLsb' 8 8) ∧
      Memory.read u.buf 11 = some (t.csumResult.extractLsb' 0 8)

/-- R124: after IP4.DEC of a packet whose header is correct and starts with 0x45, IP4.CSUM gives the header checksum
found on the wire. -/
def Obligations.Ip4ReceiveCheckAgrees : Prop :=
  ∀ (s : State) (r : Ip4Regs) (payload : List Byte), s.buf = ip4HdrBytes r (ip4Checksum r) ++ payload →
    ∃ u t, exec .ip4Dec s = .next u ∧ exec .ip4Csum u = .next t ∧ t.csumResult = t.ip4.headerChecksum ∧
      t.buf = payload ∧ t.status = .ok

/-! ## The TCP codec (spec/44_tcp.md) -/

/-- R135, R138: TCP.ENC puts the 20 header bytes before the buffer content, byte 12 the constant 0x50, the checksum field
TCP_CHECKSUM as stored; it writes no register but LEN and STATUS. A segment that would pass BUF_MAX is ERR_BUF_OVERFLOW
and nothing else changes. -/
def Obligations.TcpEncPrependsHeader : Prop :=
  (∀ s : State, s.buf.length + 20 ≤ Config.bufMax →
    exec .tcpEnc s = .next { s with
      buf := [s.tcp.srcPort.extractLsb' 8 8, s.tcp.srcPort.extractLsb' 0 8, s.tcp.dstPort.extractLsb' 8 8,
              s.tcp.dstPort.extractLsb' 0 8, s.tcp.seq.extractLsb' 24 8, s.tcp.seq.extractLsb' 16 8,
              s.tcp.seq.extractLsb' 8 8, s.tcp.seq.extractLsb' 0 8, s.tcp.ack.extractLsb' 24 8,
              s.tcp.ack.extractLsb' 16 8, s.tcp.ack.extractLsb' 8 8, s.tcp.ack.extractLsb' 0 8,
              0x50#8, s.tcp.flags, s.tcp.window.extractLsb' 8 8, s.tcp.window.extractLsb' 0 8,
              s.tcp.checksum.extractLsb' 8 8, s.tcp.checksum.extractLsb' 0 8, s.tcp.urgent.extractLsb' 8 8,
              s.tcp.urgent.extractLsb' 0 8] ++ s.buf
      status := .ok }) ∧
  (∀ s : State, Config.bufMax < s.buf.length + 20 →
    exec .tcpEnc s = .next { s with status := .errBufOverflow }) ∧
  OnlyWord 0x4000000000000000#64 .tcpEnc

/-- R139: TCP.DEC reads the nine fields from the first 20 bytes and leaves the bytes from index 4 * data_offset on as the
buffer, for every data offset from 0 to 15, none if there are no such bytes; with fewer than 20 bytes it is
ERR_SEGMENT_TOO_SMALL and nothing else changes. -/
def Obligations.TcpDecStripsHeader : Prop :=
  (∀ (s : State) (b0 b1 b2 b3 b4 b5 b6 b7 b8 b9 b10 b11 b12 b13 b14 b15 b16 b17 b18 b19 : Byte) (rest : List Byte),
    s.buf = [b0, b1, b2, b3, b4, b5, b6, b7, b8, b9, b10, b11, b12, b13, b14, b15, b16, b17, b18, b19] ++ rest →
    ∃ m : Memory, exec .tcpDec s = .next { s with
      tcp := { srcPort := b0 ++ b1, dstPort := b2 ++ b3, seq := b4 ++ b5 ++ b6 ++ b7, ack := b8 ++ b9 ++ b10 ++ b11,
               dataOffset := b12.extractLsb' 4 4, flags := b13, window := b14 ++ b15, checksum := b16 ++ b17,
               urgent := b18 ++ b19 }
      buf := m
      status := .ok } ∧
      m.length = s.buf.length - 4 * (b12.toNat / 16) ∧
      ∀ a : Nat, Memory.read m a = Memory.read s.buf (4 * (b12.toNat / 16) + a)) ∧
  (∀ s : State, s.buf.length < 20 → exec .tcpDec s = .next { s with status := .errSegmentTooSmall }) ∧
  OnlyWord 0x4100000000000000#64 .tcpDec

/-- R136, R137, R140: TCP.CSUM puts into CSUM_RESULT the checksum of the 12-byte pseudo-header (addresses IP4_SRC and
IP4_DST, a zero byte, the literal 6, the TCP length 20 + LEN), the 20 header bytes with byte 12 = 0x50 and a zero checksum
field, and the buffer; it changes nothing else but STATUS. If the segment would pass BUF_MAX it is ERR_BUF_OVERFLOW and
nothing else changes. -/
def Obligations.TcpCsumSumsPseudoHeaderAndSegment : Prop :=
  (∀ (s : State) (tl : BitVec 16), tl = BitVec.ofNat 16 (20 + s.buf.length) →
    s.buf.length + 20 ≤ Config.bufMax →
    tl.toNat = 20 + s.buf.length ∧
    exec .tcpCsum s = .next { s with
      csumResult := checksum
        ([s.ip4.src.extractLsb' 24 8, s.ip4.src.extractLsb' 16 8, s.ip4.src.extractLsb' 8 8, s.ip4.src.extractLsb' 0 8,
          s.ip4.dst.extractLsb' 24 8, s.ip4.dst.extractLsb' 16 8, s.ip4.dst.extractLsb' 8 8, s.ip4.dst.extractLsb' 0 8,
          0x00#8, 0x06#8, tl.extractLsb' 8 8, tl.extractLsb' 0 8] ++
         [s.tcp.srcPort.extractLsb' 8 8, s.tcp.srcPort.extractLsb' 0 8, s.tcp.dstPort.extractLsb' 8 8,
          s.tcp.dstPort.extractLsb' 0 8, s.tcp.seq.extractLsb' 24 8, s.tcp.seq.extractLsb' 16 8,
          s.tcp.seq.extractLsb' 8 8, s.tcp.seq.extractLsb' 0 8, s.tcp.ack.extractLsb' 24 8, s.tcp.ack.extractLsb' 16 8,
          s.tcp.ack.extractLsb' 8 8, s.tcp.ack.extractLsb' 0 8, 0x50#8, s.tcp.flags, s.tcp.window.extractLsb' 8 8,
          s.tcp.window.extractLsb' 0 8, 0x00#8, 0x00#8, s.tcp.urgent.extractLsb' 8 8, s.tcp.urgent.extractLsb' 0 8] ++
         s.buf)
      status := .ok }) ∧
  (∀ s : State, Config.bufMax < s.buf.length + 20 →
    exec .tcpCsum s = .next { s with status := .errBufOverflow }) ∧
  OnlyWord 0x4200000000000000#64 .tcpCsum

/-- R142: TCP.ENC ; TCP.DEC restores the buffer and every TCP field but TCP_DATA_OFFSET, which is 5 whatever it was. -/
def Obligations.TcpRoundTrip : Prop :=
  ∀ s : State, s.buf.length + 20 ≤ Config.bufMax →
    ∃ u, exec .tcpEnc s = .next u ∧ u.status = .ok ∧
      exec .tcpDec u = .next { s with tcp := { s.tcp with dataOffset := 5#4 }, status := .ok }

/-- R69, R196: TCP.SEAL computes the TCP checksum, stores it in TCP_CHECKSUM and encodes the segment with it; the
pseudo-header and the sealed segment together have checksum 0x0000, whatever TCP_CHECKSUM held before. -/
def Obligations.TcpSealedSegmentVerifies : Prop :=
  ∀ s : State, s.buf.length + 20 ≤ Config.bufMax →
    ∃ t, execSeq tcpSeal s = .next t ∧ t.status = .ok ∧
      t.csumResult = tcpChecksum s.tcp s.buf s.ip4.src s.ip4.dst ∧
      t.tcp = { s.tcp with checksum := t.csumResult } ∧
      t.buf = tcpHdrBytes s.tcp t.csumResult ++ s.buf ∧
      checksum (tcpPseudoHeader s.ip4.src s.ip4.dst s.buf.length ++ t.buf) = 0x0000#16

/-- R143: after TCP.DEC of a correct segment without options and without trailing bytes, TCP.CSUM gives the checksum found
on the wire. -/
def Obligations.TcpReceiveCheckAgrees : Prop :=
  ∀ (s : State) (r : TcpRegs) (payload : List Byte), s.Inv →
    s.buf = tcpHdrBytes r (tcpChecksum r payload s.ip4.src s.ip4.dst) ++ payload →
    ∃ u t, exec .tcpDec s = .next u ∧ exec .tcpCsum u = .next t ∧ t.csumResult = t.tcp.checksum ∧ t.buf = payload ∧
      t.status = .ok

/-! ## The TCP connection state machine (spec/45_tcp_fsm.md) -/

/-- R151, R167, R168: the transition function is the table. The nine specific rows; receive-RST goes to CLOSED from every
state; send-ACK changes nothing and is OK; every other pair leaves the state and is UNEXPECTED_EVENT. -/
def Obligations.DeltaFollowsTheTable : Prop :=
  let rows : List (TcpState × Event × TcpState) :=
    [(.listen, .rcvSyn, .synReceived), (.synSent, .rcvSynack, .established), (.synReceived, .rcvAck, .established),
     (.established, .rcvFin, .closeWait), (.established, .sndFin, .finWait1), (.finWait1, .rcvFin, .closing),
     (.finWait2, .rcvFin, .timeWait), (.closeWait, .sndFin, .lastAck), (.closed, .sndSyn, .synSent)]
  (∀ r ∈ rows, delta r.1 r.2.1 = (r.2.2, .ok)) ∧
  (∀ q : TcpState, delta q .rcvRst = (.closed, .ok)) ∧
  (∀ q : TcpState, delta q .sndAck = (q, .ok)) ∧
  (∀ (q : TcpState) (e : Event), e ≠ .rcvRst → e ≠ .sndAck → (∀ q' : TcpState, (q, e, q') ∉ rows) →
    delta q e = (q, .unexpectedEvent)) ∧
  deltaAll .closed [.sndSyn, .rcvSynack, .sndFin, .rcvFin] = .closing ∧
  deltaAll .listen [.rcvSyn, .rcvAck] = .established

/-- R164: from CLOSED the events reach exactly seven states. -/
def Obligations.EventsReachSevenStatesFromClosed : Prop :=
  ∀ q : TcpState, (∃ es : List Event, deltaAll .closed es = q) ↔ q.reachable = true

/-- R153, R154, R155 (with R152): receive-SYN moves LISTEN to SYN_RECEIVED, receive-SYN-ACK moves SYN_SENT to ESTABLISHED,
receive-ACK moves SYN_RECEIVED to ESTABLISHED, each with OK; in every other state the state is unchanged and the outcome
is UNEXPECTED_EVENT. TCP_PREV_STATE takes the state the event found; nothing else changes. -/
def Obligations.OpeningEventCommands : Prop :=
  (∀ s : State, s.tcpState = .listen →
    exec .fsmRcvSyn s = .next { s with tcpState := .synReceived, tcpPrevState := .listen, status := .ok }) ∧
  (∀ s : State, s.tcpState ≠ .listen →
    exec .fsmRcvSyn s = .next { s with tcpPrevState := s.tcpState, status := .unexpectedEvent }) ∧
  (∀ s : State, s.tcpState = .synSent →
    exec .fsmRcvSynack s = .next { s with tcpState := .established, tcpPrevState := .synSent, status := .ok }) ∧
  (∀ s : State, s.tcpState ≠ .synSent →
    exec .fsmRcvSynack s = .next { s with tcpPrevState := s.tcpState, status := .unexpectedEvent }) ∧
  (∀ s : State, s.tcpState = .synReceived →
    exec .fsmRcvAck s = .next { s with tcpState := .established, tcpPrevState := .synReceived, status := .ok }) ∧
  (∀ s : State, s.tcpState ≠ .synReceived →
    exec .fsmRcvAck s = .next { s with tcpPrevState := s.tcpState, status := .unexpectedEvent }) ∧
  OnlyWord 0x5000000000000000#64 .fsmRcvSyn ∧ OnlyWord 0x5100000000000000#64 .fsmRcvSynack ∧
  OnlyWord 0x5200000000000000#64 .fsmRcvAck

/-- R156 (with R152): receive-FIN moves ESTABLISHED to CLOSE_WAIT, FIN_WAIT_1 to CLOSING, FIN_WAIT_2 to TIME_WAIT, each
with OK; in every other state the state is unchanged and the outcome is UNEXPECTED_EVENT. -/
def Obligations.ReceiveFinCommand : Prop :=
  (∀ s : State, s.tcpState = .established →
    exec .fsmRcvFin s = .next { s with tcpState := .closeWait, tcpPrevState := .established, status := .ok }) ∧
  (∀ s : State, s.tcpState = .finWait1 →
    exec .fsmRcvFin s = .next { s with tcpState := .closing, tcpPrevState := .finWait1, status := .ok }) ∧
  (∀ s : State, s.tcpState = .finWait2 →
    exec .fsmRcvFin s = .next { s with tcpState := .timeWait, tcpPrevState := .finWait2, status := .ok }) ∧
  (∀ s : State, s.tcpState ≠ .established → s.tcpState ≠ .finWait1 → s.tcpState ≠ .finWait2 →
    exec .fsmRcvFin s = .next { s with tcpPrevState := s.tcpState, status := .unexpectedEvent }) ∧
  OnlyWord 0x5300000000000000#64 .fsmRcvFin

/-- R157, R160 (with R152): receive-RST moves every state to CLOSED and send-ACK leaves every state, both with OK and
never UNEXPECTED_EVENT. -/
def Obligations.ReceiveRstAndSendAckCommands : Prop :=
  (∀ s : State,
    exec .fsmRcvRst s = .next { s with tcpState := .closed, tcpPrevState := s.tcpState, status := .ok }) ∧
  (∀ s : State, exec .fsmSndAck s = .next { s with tcpPrevState := s.tcpState, status := .ok }) ∧
  OnlyWord 0x5400000000000000#64 .fsmRcvRst ∧ OnlyWord 0x5700000000000000#64 .fsmSndAck

/-- R158, R159 (with R152): local-send-SYN moves CLOSED to SYN_SENT; local-send-FIN moves ESTABLISHED to FIN_WAIT_1 and
CLOSE_WAIT to LAST_ACK; each with OK; in every other state the state is unchanged and the outcome is UNEXPECTED_EVENT. -/
def Obligations.LocalSendCommands : Prop :=
  (∀ s : State, s.tcpState = .closed →
    exec .fsmSndSyn s = .next { s with tcpState := .synSent, tcpPrevState := .closed, status := .ok }) ∧
  (∀ s : State, s.tcpState ≠ .closed →
    exec .fsmSndSyn s = .next { s with tcpPrevState := s.tcpState, status := .unexpectedEvent }) ∧
  (∀ s : State, s.tcpState = .established →
    exec .fsmSndFin s = .next { s with tcpState := .finWait1, tcpPrevState := .established, status := .ok }) ∧
  (∀ s : State, s.tcpState = .closeWait →
    exec .fsmSndFin s = .next { s with tcpState := .lastAck, tcpPrevState := .closeWait, status := .ok }) ∧
  (∀ s : State, s.tcpState ≠ .established → s.tcpState ≠ .closeWait →
    exec .fsmSndFin s = .next { s with tcpPrevState := s.tcpState, status := .unexpectedEvent }) ∧
  OnlyWord 0x5500000000000000#64 .fsmSndSyn ∧ OnlyWord 0x5600000000000000#64 .fsmSndFin

/-! ## Whole-machine rules (spec/60_exceptions.md) -/

/-- The register frame of all 26 commands: a command that R11 does not list as a writer of a register leaves it as it
was, whatever its outcome. In particular only the FSM commands and RST change TCP_STATE (R161, R199), and DOUT changes
by RD, BRD and RST only (R18). -/
def Obligations.RegistersWrittenOnlyByListedCommands : Prop :=
  ∀ (i : Instr) (s t : State) (r : RegName), exec i s = .next t → i.writesReg r = false → t.readReg r = s.readReg r

/-- The buffer frame of all 26 commands (R42, R47): the commands that store nothing leave every byte; BPUSH leaves every
byte outside the n bytes from LEN on; BWR every byte but the one at its index; an encode moves the old content up by its
header and a decode moves it down, no byte changed; a failing one leaves every byte; RST and BCLR leave no byte. The
host's port is left by all. -/
def Obligations.BufferBytesOutsideTheStoreKept : Prop :=
  (∀ (i : Instr) (s t : State), exec i s = .next t → t.port = s.port) ∧
  (∀ (i : Instr) (s t : State), i.keepsBuffer = true → exec i s = .next t →
    ∀ a : Nat, Memory.read t.buf a = Memory.read s.buf a) ∧
  (∀ (i : Instr) (s t : State), exec i s = .next t → t.status ≠ .ok →
    ∀ a : Nat, Memory.read t.buf a = Memory.read s.buf a) ∧
  (∀ (n : BitVec 8) (value : Datum) (s t : State), exec (.bpush n value) s = .next t →
    ∀ a : Nat, ¬ (s.len ≤ a ∧ a < s.len + n.toNat) → Memory.read t.buf a = Memory.read s.buf a) ∧
  (∀ (idx : BitVec 16) (byte : Byte) (s t : State), exec (.bwr idx byte) s = .next t →
    ∀ a : Nat, a ≠ idx.toNat → Memory.read t.buf a = Memory.read s.buf a) ∧
  (∀ s t : State, exec .ethEnc s = .next t → t.status = .ok →
    ∀ a : Nat, Memory.read t.buf (14 + a) = Memory.read s.buf a) ∧
  (∀ (i : Instr) (s t : State), (i = .ip4Enc ∨ i = .tcpEnc) → exec i s = .next t → t.status = .ok →
    ∀ a : Nat, Memory.read t.buf (20 + a) = Memory.read s.buf a) ∧
  (∀ s t : State, exec .ethDec s = .next t → t.status = .ok →
    ∀ a : Nat, Memory.read t.buf a = Memory.read s.buf (14 + a)) ∧
  (∀ s t : State, exec .ip4Dec s = .next t → t.status = .ok →
    ∀ a : Nat, Memory.read t.buf a = Memory.read s.buf (20 + a)) ∧
  (∀ s t : State, exec .tcpDec s = .next t → t.status = .ok →
    ∀ a : Nat, Memory.read t.buf a = Memory.read s.buf (4 * t.tcp.dataOffset.toNat + a)) ∧
  (∀ (i : Instr) (s t : State), (i = .rst ∨ i = .bclr) → exec i s = .next t → ∀ a : Nat, Memory.read t.buf a = none)

/-- R172: a command word, legal or not, that ends with one of the seven ERR_ outcomes writes STATUS and nothing else;
one that ends with UNEXPECTED_EVENT writes STATUS and TCP_PREV_STATE, which takes the unchanged state, and nothing else. -/
def Obligations.ErrorOutcomesChangeOnlyStatus : Prop :=
  ∀ (w : CommandWord) (s t : State), issue w s = .next t →
    (t.status.isErr = true → t = { s with status := t.status }) ∧
    (t.status = .unexpectedEvent → t = { s with status := .unexpectedEvent, tcpPrevState := s.tcpState })

/-- R170: a command that a word selects ends with one of the outcomes R170's table lists for it and no other, and a word
that selects none ends with ERR_ILLEGAL_CMD. -/
def Obligations.OutcomesAreThoseListed : Prop :=
  ∀ (w : CommandWord) (s t : State), issue w s = .next t →
    (∀ i : Instr, decode w = .instr i → t.status ∈ i.outcomes) ∧
    ((∃ e, decode w = .illegal e) → t.status = .errIllegalCmd)

/-- R24: no command's behaviour depends on the outcome of an earlier command, but for RD and MOV reading STATUS. -/
def Obligations.OnlyStatusReadersSeeStatus : Prop :=
  ∀ (i : Instr) (s : State) (c : StatusCode), i.readsStatus = false → exec i { s with status := c } = exec i s

/-- R173: after a command that ended with an ERR_ outcome, a command that does not read STATUS executes exactly as if the
failing command had never been issued; after an unexpected event, as if only TCP_PREV_STATE had been written. -/
def Obligations.FailedCommandLeavesNoTrace : Prop :=
  ∀ (w : CommandWord) (s t : State) (i : Instr), issue w s = .next t → i.readsStatus = false →
    (t.status.isErr = true → exec i t = exec i s) ∧
    (t.status = .unexpectedEvent → exec i t = exec i { s with tcpPrevState := s.tcpState })

/-! ## Pseudo-commands (spec/30_encoding.md R69) -/

/-- R69: BLOAD of any sequence that fits loads exactly that sequence and changes nothing else but STATUS; every command
of its expansion has a command word, and there are one BCLR and as many BPUSH as groups of up to 6 bytes. -/
def Obligations.BloadLoadsTheBytes : Prop :=
  ∀ (bs : List Byte) (s : State), bs.length ≤ Config.bufMax →
    execSeq (bload bs) s = .next { s with buf := bs, status := .ok } ∧ (∀ i ∈ bload bs, i.wellFormed = true) ∧
      (bload bs).length = 1 + (bs.length + 5) / 6
end

