-- ==== Sys2Proof/Laws/Bytes.lean ====
section
/-! SUPPORT. Big-endian byte sequences: `be` and `fromBe` are inverse to each other (spec/00_scope.md R6), and their
closed forms at the widths of the header fields (R44). -/

namespace Sys2Proof.Machine

@[simp] theorem be_length {w : Nat} (n : Nat) (v : BitVec w) : (be n v).length = n := by
  induction n with
  | zero => rfl
  | succ n ih => simp [be, ih]

/-! ## Closed forms -/

theorem be_two {w : Nat} (v : BitVec w) : be 2 v = [v.extractLsb' 8 8, v.extractLsb' 0 8] := rfl

theorem be_four {w : Nat} (v : BitVec w) :
    be 4 v = [v.extractLsb' 24 8, v.extractLsb' 16 8, v.extractLsb' 8 8, v.extractLsb' 0 8] := rfl

theorem be_six {w : Nat} (v : BitVec w) :
    be 6 v = [v.extractLsb' 40 8, v.extractLsb' 32 8, v.extractLsb' 24 8, v.extractLsb' 16 8, v.extractLsb' 8 8,
      v.extractLsb' 0 8] := rfl

/-- `be` byte by byte: byte k of n is `v[8(n-k)-1 : 8(n-k)-8]` (R66). -/
theorem be_eq_map_range {w : Nat} (n : Nat) (v : BitVec w) :
    be n v = (List.range n).map (fun k => v.extractLsb' (8 * (n - 1 - k)) 8) := by
  induction n with
  | zero => rfl
  | succ n ih =>
    rw [be, ih, List.range_succ_eq_map, List.map_cons, List.map_map]
    refine congrArg₂ _ (by simp) (List.map_congr_left fun k hk => ?_)
    rw [Function.comp, show n + 1 - 1 - k.succ = n - 1 - k by omega]

/-! ## Numbers of byte sequences -/

theorem beNat_eq (acc : Nat) (bs : List Byte) : beNat acc bs = acc * 256 ^ bs.length + beNat 0 bs := by
  induction bs generalizing acc with
  | nil => simp [beNat]
  | cons b bs ih => rw [beNat, beNat, ih, ih (0 * 256 + b.toNat), List.length_cons, pow_succ]; ring

theorem beNat_lt (bs : List Byte) : beNat 0 bs < 256 ^ bs.length := by
  induction bs with
  | nil => simp [beNat]
  | cons b bs ih =>
    have hb : b.toNat ≤ 255 := by have := b.isLt; omega
    rw [beNat, beNat_eq, List.length_cons, pow_succ]
    nlinarith [Nat.mul_le_mul_right (256 ^ bs.length) hb]

theorem beNat_be {w : Nat} (n : Nat) (v : BitVec w) : beNat 0 (be n v) = v.toNat % 256 ^ n := by
  induction n with
  | zero => simp [be, beNat, Nat.mod_one]
  | succ n ih =>
    rw [be, beNat, beNat_eq, ih, be_length, BitVec.extractLsb'_toNat, Nat.shiftRight_eq_div_pow, pow_succ 256,
      show 2 ^ (8 * n) = 256 ^ n by rw [pow_mul]; norm_num, show 2 ^ 8 = 256 from rfl, Nat.mod_mul (x := v.toNat)]
    ring

/-- Reading back the bytes of a value of their width gives the value (R6). -/
theorem fromBe_be {w n : Nat} (v : BitVec w) (h : w = 8 * n) : fromBe w (be n v) = v := by
  apply BitVec.eq_of_toNat_eq
  rw [fromBe, beNat_be, BitVec.toNat_ofNat, show 256 ^ n = 2 ^ w by rw [h, pow_mul]; norm_num, Nat.mod_mod,
    Nat.mod_eq_of_lt v.isLt]

@[simp] theorem fromBe_be_two (v : BitVec 16) : fromBe 16 (be 2 v) = v := fromBe_be v rfl
@[simp] theorem fromBe_be_four (v : BitVec 32) : fromBe 32 (be 4 v) = v := fromBe_be v rfl
@[simp] theorem fromBe_be_six (v : BitVec 48) : fromBe 48 (be 6 v) = v := fromBe_be v rfl

/-- The low n bytes of the value of n bytes, at any width that holds them, are the bytes (R6). -/
theorem be_fromBe {w : Nat} (bs : List Byte) (h : 8 * bs.length ≤ w) : be bs.length (fromBe w bs) = bs := by
  have key : ∀ (bs : List Byte) (m : Nat), m % 256 ^ bs.length = beNat 0 bs → m < 2 ^ w →
      be bs.length (BitVec.ofNat w m) = bs := by
    intro bs
    induction bs with
    | nil => intros; rfl
    | cons b bs ih =>
      intro m hm hw
      rw [List.length_cons, be]
      rw [beNat, beNat_eq, List.length_cons, pow_succ, Nat.mod_mul, Nat.zero_mul, Nat.zero_add] at hm
      have h1 := Nat.mod_lt m (show 0 < 256 ^ bs.length by positivity)
      have h2 := beNat_lt bs
      have hpos : 0 < 256 ^ bs.length := by positivity
      have e1 : m % 256 ^ bs.length = beNat 0 bs := by
        have := congrArg (· % 256 ^ bs.length) hm
        simpa [Nat.add_mul_mod_self_left, Nat.mod_eq_of_lt h2, Nat.add_mod, Nat.mul_mod_left] using this
      have e2 : m / 256 ^ bs.length % 256 = b.toNat := by
        rw [e1] at hm
        have : 256 ^ bs.length * (m / 256 ^ bs.length % 256) = 256 ^ bs.length * b.toNat := by
          rw [Nat.mul_comm _ b.toNat]; omega
        exact Nat.eq_of_mul_eq_mul_left hpos this
      refine congrArg₂ _ (BitVec.eq_of_toNat_eq ?_) (ih m e1 hw)
      rw [BitVec.extractLsb'_toNat, Nat.shiftRight_eq_div_pow, BitVec.toNat_ofNat, Nat.mod_eq_of_lt hw, pow_mul,
        show 2 ^ 8 = 256 from rfl, e2]
  have hlt : beNat 0 bs < 2 ^ w :=
    lt_of_lt_of_le (beNat_lt bs) (by
      rw [show 256 = 2 ^ 8 from rfl, ← pow_mul]; exact Nat.pow_le_pow_right (by norm_num) h)
  exact key bs _ (Nat.mod_eq_of_lt (beNat_lt bs)) hlt

/-- The value of n bytes fits in 8n bits. -/
theorem fromBe_toNat_lt {w : Nat} (bs : List Byte) (h : 8 * bs.length ≤ w) :
    (fromBe w bs).toNat < 2 ^ (8 * bs.length) := by
  have h1 := beNat_lt bs
  rw [show 256 = 2 ^ 8 from rfl, ← pow_mul] at h1
  rw [fromBe, BitVec.toNat_ofNat, Nat.mod_eq_of_lt (lt_of_lt_of_le h1 (Nat.pow_le_pow_right (by norm_num) h))]
  exact h1

/-! ## Fields of a decoded header -/

theorem append_toNat {m n : Nat} (a : BitVec m) (b : BitVec n) : (a ++ b).toNat = a.toNat * 2 ^ n + b.toNat := by
  rw [BitVec.toNat_append, ← Nat.shiftLeft_add_eq_or_of_lt b.isLt, Nat.shiftLeft_eq]

@[simp] theorem fromBe_two (a b : Byte) : fromBe 16 [a, b] = a ++ b := by
  apply BitVec.eq_of_toNat_eq
  have := a.isLt; have := b.isLt
  rw [append_toNat, fromBe, BitVec.toNat_ofNat]
  simp only [beNat]; omega

@[simp] theorem fromBe_four (a b c d : Byte) : fromBe 32 [a, b, c, d] = a ++ b ++ c ++ d := by
  apply BitVec.eq_of_toNat_eq
  have := a.isLt; have := b.isLt; have := c.isLt; have := d.isLt
  simp only [append_toNat, fromBe, BitVec.toNat_ofNat, beNat]; omega

@[simp] theorem fromBe_six (a b c d e f : Byte) :
    fromBe 48 [a, b, c, d, e, f] = a ++ b ++ c ++ d ++ e ++ f := by
  apply BitVec.eq_of_toNat_eq
  have := a.isLt; have := b.isLt; have := c.isLt; have := d.isLt; have := e.isLt; have := f.isLt
  simp only [append_toNat, fromBe, BitVec.toNat_ofNat, beNat]; omega

end Sys2Proof.Machine
end

