-- ==== Sys2Proof/Laws/Checksum.lean ====
section
/-! SUPPORT. The checksum engine in numbers (spec/41_checksum.md): what the summing loop, the fold and the complement
give, as facts about natural numbers. -/

namespace Sys2Proof.Machine

/-! ## The summing loop -/

theorem accAdd_toNat (acc : Acc) (w : BitVec 16) (h : acc.toNat + w.toNat < 2 ^ 32) :
    (accAdd acc w).toNat = acc.toNat + w.toNat := by
  rw [accAdd, BitVec.toNat_add, BitVec.toNat_setWidth_of_le (by norm_num), Nat.mod_eq_of_lt h]

theorem bytePair_toNat (a b : Byte) : (a ++ b).toNat = 256 * a.toNat + b.toNat := by
  rw [append_toNat]; omega

/-- As long as no bit is dropped, the loop adds the integer sum of the words to the accumulator. -/
theorem sumWords_toNat (acc : Acc) (s : List Byte) (h : acc.toNat + wordSum s < 2 ^ 32) :
    (sumWords acc s).toNat = acc.toNat + wordSum s := by
  induction acc, s using sumWords.induct with
  | case1 acc => simp [sumWords, wordSum]
  | case2 acc b =>
    simp only [wordSum] at h
    rw [sumWords, accAdd_toNat _ _ (by rw [bytePair_toNat]; simpa using h), bytePair_toNat, wordSum]
    simp
  | case3 acc a b rest ih =>
    simp only [wordSum] at h
    have hw := bytePair_toNat a b
    have ha := accAdd_toNat acc (a ++ b) (by omega)
    rw [sumWords, ih (by omega), wordSum]
    omega

theorem wordSum_le (s : List Byte) : 2 * wordSum s ≤ 65535 * (s.length + 1) := by
  induction s using wordSum.induct with
  | case1 => simp [wordSum]
  | case2 b => have := b.isLt; simp only [wordSum, List.length_cons, List.length_nil]; omega
  | case3 a b rest ih =>
    have := a.isLt; have := b.isLt
    simp only [wordSum, List.length_cons]; omega

theorem wordSum_lt (s : List Byte) (h : s.length ≤ 131072) : wordSum s < 2 ^ 32 := by
  have := wordSum_le s; omega

/-! ## The fold -/

theorem foldStep_toNat (acc : Acc) : (foldStep acc).toNat = acc.toNat % 65536 + acc.toNat / 65536 := by
  have := acc.isLt
  rw [foldStep, BitVec.toNat_add, BitVec.toNat_setWidth_of_le (by norm_num), BitVec.toNat_setWidth_of_le (by norm_num),
    BitVec.extractLsb'_toNat, BitVec.extractLsb'_toNat, Nat.shiftRight_zero, Nat.shiftRight_eq_div_pow]
  norm_num only
  have hq : acc.toNat / 65536 < 65536 := by omega
  rw [Nat.mod_eq_of_lt hq]
  omega

theorem high_eq_zero_iff (acc : Acc) : acc.extractLsb' 16 16 = 0 ↔ acc.toNat < 65536 := by
  have := acc.isLt
  rw [← BitVec.toNat_inj, BitVec.extractLsb'_toNat, Nat.shiftRight_eq_div_pow]
  change _ = 0 ↔ _
  omega

/-- The loop with a carry left takes a step; without one it stops. -/
theorem foldLoop_succ (n : Nat) (acc : Acc) :
    foldLoop (n + 1) acc = if acc.toNat < 65536 then acc else foldLoop n (foldStep acc) := by
  rw [foldLoop]; simp only [high_eq_zero_iff]

theorem foldLoop_of_lt (n : Nat) (acc : Acc) (h : acc.toNat < 65536) : foldLoop n acc = acc := by
  cases n with
  | zero => rfl
  | succ n => rw [foldLoop_succ, if_pos h]

/-- Two steps always suffice (R101). -/
theorem foldLoop_eq_fold (n : Nat) (acc : Acc) (h : 2 ≤ n) : foldLoop n acc = fold acc := by
  obtain ⟨m, rfl⟩ := Nat.exists_eq_add_of_le' h
  have hacc := acc.isLt
  have h1 := foldStep_toNat acc
  have h2 := foldStep_toNat (foldStep acc)
  by_cases h0 : acc.toNat < 65536
  · rw [fold, foldLoop_of_lt _ _ h0, foldLoop_of_lt _ _ h0]
  · rw [fold, foldLoop_succ (m + 1), if_neg h0, foldLoop_succ 1, if_neg h0, foldLoop_succ m, foldLoop_succ 0, foldLoop,
      foldLoop_of_lt m _ (by omega)]

/-- The folded value: 0 for 0, otherwise the value in 1..0xFFFF congruent to the accumulator modulo 0xFFFF (R101). -/
theorem fold_toNat (acc : Acc) :
    (fold acc).toNat = if acc.toNat = 0 then 0 else (acc.toNat - 1) % 65535 + 1 := by
  have hacc := acc.isLt
  have h1 := foldStep_toNat acc
  have h2 := foldStep_toNat (foldStep acc)
  rw [fold, foldLoop_succ]
  split
  · split <;> omega
  · rw [foldLoop_succ, foldLoop]
    split <;> split <;> omega

/-! ## The checksum -/

theorem checksum_toNat (s : List Byte) (h : s.length ≤ 131072) :
    (checksum s).toNat = 65535 - (if wordSum s = 0 then 0 else (wordSum s - 1) % 65535 + 1) := by
  have hs : (sumWords 0 s).toNat = wordSum s := by
    rw [sumWords_toNat 0 s (by simpa using wordSum_lt s h)]; simp
  have hf := fold_toNat (sumWords 0 s)
  rw [hs] at hf
  have hb : (fold (sumWords 0 s)).toNat < 65536 := by rw [hf]; split <;> omega
  rw [checksum, BitVec.toNat_not, BitVec.extractLsb'_toNat, Nat.shiftRight_zero, hf]
  rw [hf] at hb
  rw [Nat.mod_eq_of_lt hb]

/-- The checksum of a sequence is zero exactly if the sum of its words is a positive multiple of 0xFFFF. -/
theorem checksum_eq_zero_iff (s : List Byte) (h : s.length ≤ 131072) :
    checksum s = 0#16 ↔ wordSum s ≠ 0 ∧ wordSum s % 65535 = 0 := by
  rw [← BitVec.toNat_inj, checksum_toNat s h]
  change _ = 0 ↔ _
  split <;> omega

/-! ## Sums of parts -/

/-- Over an even prefix the sums add up. -/
theorem wordSum_append (s t : List Byte) (h : s.length % 2 = 0) : wordSum (s ++ t) = wordSum s + wordSum t := by
  induction s using wordSum.induct with
  | case1 => simp [wordSum]
  | case2 b => simp at h
  | case3 a b rest ih =>
    simp only [List.length_cons] at h
    simp only [List.cons_append, wordSum, ih (by omega)]
    omega

/-- Overwriting both bytes of one word changes the sum by that word's change. -/
theorem wordSum_set_pair (s : List Byte) (j : Nat) (hj : j % 2 = 0) (hl : j + 1 < s.length) (x y : Byte) :
    wordSum ((s.set j x).set (j + 1) y) + (256 * (s.getD j 0).toNat + (s.getD (j + 1) 0).toNat) =
      wordSum s + (256 * x.toNat + y.toNat) := by
  induction s using wordSum.induct generalizing j with
  | case1 => simp at hl
  | case2 b => simp at hl
  | case3 a b rest ih =>
    match j, hj with
    | 0, _ => simp [wordSum]; omega
    | j + 2, hj =>
      have := ih j (by omega) (by simp only [List.length_cons] at hl; omega)
      simp only [List.set_cons_succ, wordSum, List.getD_cons_succ, show j + 2 + 1 = j + 1 + 1 + 1 from rfl] at this ⊢
      omega

/-- A 16-bit value written into two bytes, most significant first, is that value's word. -/
theorem split16 (v : BitVec 16) : 256 * (v.extractLsb' 8 8).toNat + (v.extractLsb' 0 8).toNat = v.toNat := by
  have := v.isLt
  rw [BitVec.extractLsb'_toNat, BitVec.extractLsb'_toNat, Nat.shiftRight_eq_div_pow, Nat.shiftRight_zero]
  omega

/-- The sum of a sequence with its own checksum added to one word is a positive multiple of 0xFFFF (R105). -/
theorem checksum_complements (s : List Byte) (h : s.length ≤ 131072) :
    wordSum s + (checksum s).toNat ≠ 0 ∧ (wordSum s + (checksum s).toNat) % 65535 = 0 := by
  rw [checksum_toNat s h]
  split <;> omega

end Sys2Proof.Machine
end

