-- ==== Sys2Proof/Laws/Encoding.lean ====
section
/-! SUPPORT. The fields of a command word, and the zero tests of the formats. -/

namespace Sys2Proof

/-! ## Fields of a word put together, and a word put together from its fields -/

/-- The bits of a word: IMM below bit 48, A from 48 to 55, OP from 56 on (R60). -/
theorem mkWord_getLsbD (op a : BitVec 8) (imm : Datum) (i : Nat) :
    (mkWord op a imm).getLsbD i =
      if i < 48 then imm.getLsbD i else if i - 48 < 8 then a.getLsbD (i - 48) else op.getLsbD (i - 48 - 8) := by
  change BitVec.getLsbD (w := 8 + 8 + 48) (op ++ a ++ imm) i = _
  rw [BitVec.getLsbD_append, BitVec.getLsbD_append]

@[simp] theorem opField_mkWord (op a : BitVec 8) (imm : Datum) : opField (mkWord op a imm) = op := by
  apply BitVec.eq_of_getLsbD_eq
  intro i hi
  rw [opField, BitVec.getLsbD_extractLsb', mkWord_getLsbD, if_neg (by omega), if_neg (by omega),
    show 56 + i - 48 - 8 = i by omega]
  simp [hi]

@[simp] theorem aField_mkWord (op a : BitVec 8) (imm : Datum) : aField (mkWord op a imm) = a := by
  apply BitVec.eq_of_getLsbD_eq
  intro i hi
  rw [aField, BitVec.getLsbD_extractLsb', mkWord_getLsbD, if_neg (by omega), if_pos (by omega),
    show 48 + i - 48 = i by omega]
  simp [hi]

@[simp] theorem immField_mkWord (op a : BitVec 8) (imm : Datum) : immField (mkWord op a imm) = imm := by
  apply BitVec.eq_of_getLsbD_eq
  intro i hi
  rw [immField, BitVec.getLsbD_extractLsb', mkWord_getLsbD, if_pos (by omega)]
  simp [hi]

@[simp] theorem mkWord_fields (w : CommandWord) : mkWord (opField w) (aField w) (immField w) = w := by
  apply BitVec.eq_of_getLsbD_eq
  intro i hi
  rw [mkWord_getLsbD, opField, aField, immField, BitVec.getLsbD_extractLsb', BitVec.getLsbD_extractLsb',
    BitVec.getLsbD_extractLsb']
  split
  · simp [*]
  · split
    · rw [show 48 + (i - 48) = i by omega]; simp [*]
    · rw [show 56 + (i - 48 - 8) = i by omega]; simp [show i - 48 - 8 < 8 by omega]

theorem mkWord_eq_iff (w : CommandWord) (op a : BitVec 8) (imm : Datum) :
    mkWord op a imm = w ↔ opField w = op ∧ aField w = a ∧ immField w = imm := by
  constructor
  · rintro rfl; simp
  · rintro ⟨rfl, rfl, rfl⟩; simp

/-! ## Zero high bits -/

theorem extractLsb'_eq_zero_iff {n lo len : Nat} (v : BitVec n) (h : n = lo + len) :
    v.extractLsb' lo len = 0 ↔ v.toNat < 2 ^ lo := by
  have hlt := v.isLt
  rw [← BitVec.toNat_inj, BitVec.extractLsb'_toNat, Nat.shiftRight_eq_div_pow]
  change _ = 0 ↔ _
  subst h
  rw [Nat.mod_eq_of_lt (by rw [Nat.div_lt_iff_lt_mul (by positivity), Nat.mul_comm, ← Nat.pow_add]; exact hlt)]
  rw [Nat.div_eq_zero_iff]
  simp

theorem imm_high40_zero (v : Datum) : v.extractLsb' 8 40 = 0 ↔ v.toNat < 2 ^ 8 := extractLsb'_eq_zero_iff v rfl

theorem imm_high32_zero (v : Datum) : v.extractLsb' 16 32 = 0 ↔ v.toNat < 2 ^ 16 := extractLsb'_eq_zero_iff v rfl

/-- The low field of a datum whose other bits are zero is the datum. -/
theorem setWidth_setWidth_of_lt {n : Nat} (v : Datum) (h : v.toNat < 2 ^ n) : (v.setWidth n).setWidth 48 = v := by
  apply BitVec.eq_of_toNat_eq
  simp [Nat.mod_eq_of_lt h]
  omega

theorem extractLsb'_zero_eq_setWidth {n : Nat} (v : Datum) : v.extractLsb' 0 n = v.setWidth n := by
  apply BitVec.eq_of_toNat_eq
  simp

theorem setWidth48_toNat_lt {n : Nat} (v : BitVec n) (h : n ≤ 48) : (v.setWidth 48).toNat < 2 ^ n := by
  rw [BitVec.toNat_setWidth_of_le h]
  exact v.isLt

theorem setWidth_setWidth48 {n : Nat} (v : BitVec n) (h : n ≤ 48) : (v.setWidth 48).setWidth n = v := by
  apply BitVec.eq_of_toNat_eq
  rw [BitVec.toNat_setWidth, BitVec.toNat_setWidth_of_le h, Nat.mod_eq_of_lt v.isLt]

theorem pushOperandsOk_iff (n : BitVec 8) (value : Datum) :
    pushOperandsOk n value = true ↔ 1 ≤ n.toNat ∧ n.toNat ≤ 6 ∧ value.toNat < 2 ^ (8 * n.toNat) := by
  simp [pushOperandsOk, and_assoc]

/-! ## What each format gives -/

/-- A format-N word is legal exactly if A and IMM are zero. -/
theorem formatN_eq_instr (w : CommandWord) (i j : Instr) :
    formatN w i = .instr j ↔ aField w = 0 ∧ immField w = 0 ∧ i = j := by
  unfold formatN; split <;> [simp_all; (split <;> simp_all)]

theorem formatR_eq_instr (w : CommandWord) (j : Instr) :
    formatR w = .instr j ↔ immField w = 0 ∧ .rd (aField w) = j := by
  unfold formatR; split <;> simp_all

theorem formatM_eq_instr (w : CommandWord) (j : Instr) :
    formatM w = .instr j ↔ (immField w).toNat < 2 ^ 8 ∧ .mov (aField w) ((immField w).setWidth 8) = j := by
  unfold formatM
  simp only [ne_eq, imm_high40_zero, extractLsb'_zero_eq_setWidth]
  split <;> simp_all

theorem formatP_eq_instr (w : CommandWord) (j : Instr) :
    formatP w = .instr j ↔
      pushOperandsOk (aField w) (immField w) = true ∧ .bpush (aField w) (immField w) = j := by
  unfold formatP; split <;> simp_all

theorem formatX_eq_instr (w : CommandWord) (j : Instr) :
    formatX w = .instr j ↔ aField w = 0 ∧ (immField w).toNat < 2 ^ 16 ∧ .brd ((immField w).setWidth 16) = j := by
  unfold formatX
  simp only [ne_eq, imm_high32_zero, extractLsb'_zero_eq_setWidth]
  split
  · simp_all
  · split <;> simp_all

theorem formatY_eq_instr (w : CommandWord) (j : Instr) :
    formatY w = .instr j ↔
      (immField w).toNat < 2 ^ 16 ∧ .bwr ((immField w).setWidth 16) (aField w) = j := by
  unfold formatY
  simp only [ne_eq, imm_high32_zero, extractLsb'_zero_eq_setWidth]
  split <;> simp_all

/-- A word is illegal exactly if it selects no command. -/
theorem decode_illegal_iff (w : CommandWord) : (∃ e, decode w = .illegal e) ↔ ∀ i, decode w ≠ .instr i := by
  cases h : decode w <;> simp

end Sys2Proof
end

