-- ==== Sys2Proof/Laws/State.lean ====
section
/-! SUPPORT. One lemma per field of State and named update of Machine/Ops.lean: what the update leaves in the field. -/

namespace Sys2Proof.Machine.State

variable (s : State)

@[simp] theorem withStatus_status (c : StatusCode) : (s.withStatus c).status = c := rfl
@[simp] theorem withStatus_dout (c : StatusCode) : (s.withStatus c).dout = s.dout := rfl
@[simp] theorem withStatus_csumResult (c : StatusCode) : (s.withStatus c).csumResult = s.csumResult := rfl
@[simp] theorem withStatus_tcpState (c : StatusCode) : (s.withStatus c).tcpState = s.tcpState := rfl
@[simp] theorem withStatus_tcpPrevState (c : StatusCode) : (s.withStatus c).tcpPrevState = s.tcpPrevState := rfl
@[simp] theorem withStatus_eth (c : StatusCode) : (s.withStatus c).eth = s.eth := rfl
@[simp] theorem withStatus_ip4 (c : StatusCode) : (s.withStatus c).ip4 = s.ip4 := rfl
@[simp] theorem withStatus_tcp (c : StatusCode) : (s.withStatus c).tcp = s.tcp := rfl
@[simp] theorem withStatus_buf (c : StatusCode) : (s.withStatus c).buf = s.buf := rfl
@[simp] theorem withStatus_port (c : StatusCode) : (s.withStatus c).port = s.port := rfl
@[simp] theorem withStatus_len (c : StatusCode) : (s.withStatus c).len = s.len := rfl

@[simp] theorem withDout_status (v : Datum) : (s.withDout v).status = s.status := rfl
@[simp] theorem withDout_dout (v : Datum) : (s.withDout v).dout = v := rfl
@[simp] theorem withDout_csumResult (v : Datum) : (s.withDout v).csumResult = s.csumResult := rfl
@[simp] theorem withDout_tcpState (v : Datum) : (s.withDout v).tcpState = s.tcpState := rfl
@[simp] theorem withDout_tcpPrevState (v : Datum) : (s.withDout v).tcpPrevState = s.tcpPrevState := rfl
@[simp] theorem withDout_eth (v : Datum) : (s.withDout v).eth = s.eth := rfl
@[simp] theorem withDout_ip4 (v : Datum) : (s.withDout v).ip4 = s.ip4 := rfl
@[simp] theorem withDout_tcp (v : Datum) : (s.withDout v).tcp = s.tcp := rfl
@[simp] theorem withDout_buf (v : Datum) : (s.withDout v).buf = s.buf := rfl
@[simp] theorem withDout_port (v : Datum) : (s.withDout v).port = s.port := rfl
@[simp] theorem withDout_len (v : Datum) : (s.withDout v).len = s.len := rfl

@[simp] theorem withCsumResult_status (v : BitVec 16) : (s.withCsumResult v).status = s.status := rfl
@[simp] theorem withCsumResult_dout (v : BitVec 16) : (s.withCsumResult v).dout = s.dout := rfl
@[simp] theorem withCsumResult_csumResult (v : BitVec 16) : (s.withCsumResult v).csumResult = v := rfl
@[simp] theorem withCsumResult_tcpState (v : BitVec 16) : (s.withCsumResult v).tcpState = s.tcpState := rfl
@[simp] theorem withCsumResult_tcpPrevState (v : BitVec 16) : (s.withCsumResult v).tcpPrevState = s.tcpPrevState := rfl
@[simp] theorem withCsumResult_eth (v : BitVec 16) : (s.withCsumResult v).eth = s.eth := rfl
@[simp] theorem withCsumResult_ip4 (v : BitVec 16) : (s.withCsumResult v).ip4 = s.ip4 := rfl
@[simp] theorem withCsumResult_tcp (v : BitVec 16) : (s.withCsumResult v).tcp = s.tcp := rfl
@[simp] theorem withCsumResult_buf (v : BitVec 16) : (s.withCsumResult v).buf = s.buf := rfl
@[simp] theorem withCsumResult_port (v : BitVec 16) : (s.withCsumResult v).port = s.port := rfl
@[simp] theorem withCsumResult_len (v : BitVec 16) : (s.withCsumResult v).len = s.len := rfl

@[simp] theorem withFsm_status (n p : TcpState) : (s.withFsm n p).status = s.status := rfl
@[simp] theorem withFsm_dout (n p : TcpState) : (s.withFsm n p).dout = s.dout := rfl
@[simp] theorem withFsm_csumResult (n p : TcpState) : (s.withFsm n p).csumResult = s.csumResult := rfl
@[simp] theorem withFsm_tcpState (n p : TcpState) : (s.withFsm n p).tcpState = n := rfl
@[simp] theorem withFsm_tcpPrevState (n p : TcpState) : (s.withFsm n p).tcpPrevState = p := rfl
@[simp] theorem withFsm_eth (n p : TcpState) : (s.withFsm n p).eth = s.eth := rfl
@[simp] theorem withFsm_ip4 (n p : TcpState) : (s.withFsm n p).ip4 = s.ip4 := rfl
@[simp] theorem withFsm_tcp (n p : TcpState) : (s.withFsm n p).tcp = s.tcp := rfl
@[simp] theorem withFsm_buf (n p : TcpState) : (s.withFsm n p).buf = s.buf := rfl
@[simp] theorem withFsm_port (n p : TcpState) : (s.withFsm n p).port = s.port := rfl
@[simp] theorem withFsm_len (n p : TcpState) : (s.withFsm n p).len = s.len := rfl

@[simp] theorem withEth_status (r : EthRegs) : (s.withEth r).status = s.status := rfl
@[simp] theorem withEth_dout (r : EthRegs) : (s.withEth r).dout = s.dout := rfl
@[simp] theorem withEth_csumResult (r : EthRegs) : (s.withEth r).csumResult = s.csumResult := rfl
@[simp] theorem withEth_tcpState (r : EthRegs) : (s.withEth r).tcpState = s.tcpState := rfl
@[simp] theorem withEth_tcpPrevState (r : EthRegs) : (s.withEth r).tcpPrevState = s.tcpPrevState := rfl
@[simp] theorem withEth_eth (r : EthRegs) : (s.withEth r).eth = r := rfl
@[simp] theorem withEth_ip4 (r : EthRegs) : (s.withEth r).ip4 = s.ip4 := rfl
@[simp] theorem withEth_tcp (r : EthRegs) : (s.withEth r).tcp = s.tcp := rfl
@[simp] theorem withEth_buf (r : EthRegs) : (s.withEth r).buf = s.buf := rfl
@[simp] theorem withEth_port (r : EthRegs) : (s.withEth r).port = s.port := rfl
@[simp] theorem withEth_len (r : EthRegs) : (s.withEth r).len = s.len := rfl

@[simp] theorem withIp4_status (r : Ip4Regs) : (s.withIp4 r).status = s.status := rfl
@[simp] theorem withIp4_dout (r : Ip4Regs) : (s.withIp4 r).dout = s.dout := rfl
@[simp] theorem withIp4_csumResult (r : Ip4Regs) : (s.withIp4 r).csumResult = s.csumResult := rfl
@[simp] theorem withIp4_tcpState (r : Ip4Regs) : (s.withIp4 r).tcpState = s.tcpState := rfl
@[simp] theorem withIp4_tcpPrevState (r : Ip4Regs) : (s.withIp4 r).tcpPrevState = s.tcpPrevState := rfl
@[simp] theorem withIp4_eth (r : Ip4Regs) : (s.withIp4 r).eth = s.eth := rfl
@[simp] theorem withIp4_ip4 (r : Ip4Regs) : (s.withIp4 r).ip4 = r := rfl
@[simp] theorem withIp4_tcp (r : Ip4Regs) : (s.withIp4 r).tcp = s.tcp := rfl
@[simp] theorem withIp4_buf (r : Ip4Regs) : (s.withIp4 r).buf = s.buf := rfl
@[simp] theorem withIp4_port (r : Ip4Regs) : (s.withIp4 r).port = s.port := rfl
@[simp] theorem withIp4_len (r : Ip4Regs) : (s.withIp4 r).len = s.len := rfl

@[simp] theorem withTcp_status (r : TcpRegs) : (s.withTcp r).status = s.status := rfl
@[simp] theorem withTcp_dout (r : TcpRegs) : (s.withTcp r).dout = s.dout := rfl
@[simp] theorem withTcp_csumResult (r : TcpRegs) : (s.withTcp r).csumResult = s.csumResult := rfl
@[simp] theorem withTcp_tcpState (r : TcpRegs) : (s.withTcp r).tcpState = s.tcpState := rfl
@[simp] theorem withTcp_tcpPrevState (r : TcpRegs) : (s.withTcp r).tcpPrevState = s.tcpPrevState := rfl
@[simp] theorem withTcp_eth (r : TcpRegs) : (s.withTcp r).eth = s.eth := rfl
@[simp] theorem withTcp_ip4 (r : TcpRegs) : (s.withTcp r).ip4 = s.ip4 := rfl
@[simp] theorem withTcp_tcp (r : TcpRegs) : (s.withTcp r).tcp = r := rfl
@[simp] theorem withTcp_buf (r : TcpRegs) : (s.withTcp r).buf = s.buf := rfl
@[simp] theorem withTcp_port (r : TcpRegs) : (s.withTcp r).port = s.port := rfl
@[simp] theorem withTcp_len (r : TcpRegs) : (s.withTcp r).len = s.len := rfl

@[simp] theorem withBuf_status (m : Memory) : (s.withBuf m).status = s.status := rfl
@[simp] theorem withBuf_dout (m : Memory) : (s.withBuf m).dout = s.dout := rfl
@[simp] theorem withBuf_csumResult (m : Memory) : (s.withBuf m).csumResult = s.csumResult := rfl
@[simp] theorem withBuf_tcpState (m : Memory) : (s.withBuf m).tcpState = s.tcpState := rfl
@[simp] theorem withBuf_tcpPrevState (m : Memory) : (s.withBuf m).tcpPrevState = s.tcpPrevState := rfl
@[simp] theorem withBuf_eth (m : Memory) : (s.withBuf m).eth = s.eth := rfl
@[simp] theorem withBuf_ip4 (m : Memory) : (s.withBuf m).ip4 = s.ip4 := rfl
@[simp] theorem withBuf_tcp (m : Memory) : (s.withBuf m).tcp = s.tcp := rfl
@[simp] theorem withBuf_buf (m : Memory) : (s.withBuf m).buf = m := rfl
@[simp] theorem withBuf_port (m : Memory) : (s.withBuf m).port = s.port := rfl
@[simp] theorem withBuf_len (m : Memory) : (s.withBuf m).len = m.length := rfl

@[simp] theorem withPort_status (p : List CommandWord) : (s.withPort p).status = s.status := rfl
@[simp] theorem withPort_dout (p : List CommandWord) : (s.withPort p).dout = s.dout := rfl
@[simp] theorem withPort_csumResult (p : List CommandWord) : (s.withPort p).csumResult = s.csumResult := rfl
@[simp] theorem withPort_tcpState (p : List CommandWord) : (s.withPort p).tcpState = s.tcpState := rfl
@[simp] theorem withPort_tcpPrevState (p : List CommandWord) : (s.withPort p).tcpPrevState = s.tcpPrevState := rfl
@[simp] theorem withPort_eth (p : List CommandWord) : (s.withPort p).eth = s.eth := rfl
@[simp] theorem withPort_ip4 (p : List CommandWord) : (s.withPort p).ip4 = s.ip4 := rfl
@[simp] theorem withPort_tcp (p : List CommandWord) : (s.withPort p).tcp = s.tcp := rfl
@[simp] theorem withPort_buf (p : List CommandWord) : (s.withPort p).buf = s.buf := rfl
@[simp] theorem withPort_port (p : List CommandWord) : (s.withPort p).port = p := rfl
@[simp] theorem withPort_len (p : List CommandWord) : (s.withPort p).len = s.len := rfl

/-- An update of the same field twice leaves the second value. -/
@[simp] theorem withStatus_withStatus (c d : StatusCode) : (s.withStatus c).withStatus d = s.withStatus d := rfl
@[simp] theorem withPort_withPort (p q : List CommandWord) : (s.withPort p).withPort q = s.withPort q := rfl
@[simp] theorem withStatus_self : s.withStatus s.status = s := rfl
@[simp] theorem withPort_self : s.withPort s.port = s := rfl

end Sys2Proof.Machine.State
end

