-- ==== Sys2Proof/Laws/Ops.lean ====
section
/-! SUPPORT. One lemma per shared operation of Machine/Ops.lean that says everything it can do, and the laws of the
buffer: read after write, and that every buffer operation keeps the capacity where its caller has checked it. -/

namespace Sys2Proof

/-! ## BUF_MAX (R4) -/

theorem Config.bufMax_ge : 64 ≤ Config.bufMax := by unfold Config.bufMax; omega

theorem Config.bufMax_le : Config.bufMax ≤ 65535 := by unfold Config.bufMax; omega

namespace Machine

/-! ## Ending a command -/

@[simp] theorem endWith_eq (c : StatusCode) (s : State) : endWith c s = .next (s.withStatus c) := rfl

@[simp] theorem complete_eq (s : State) : complete s = .next (s.withStatus .ok) := rfl

@[simp] theorem raise_eq (c : StatusCode) (s : State) : raise c s = .next (s.withStatus c) := rfl

@[simp] theorem illegalCommand_eq (s : State) : illegalCommand s = .next (s.withStatus .errIllegalCmd) := rfl

theorem requireRoom_of_le {cap n : Nat} {s : State} (go : Result) (h : s.buf.length + n ≤ cap) :
    requireRoom cap n s go = go := if_neg (Nat.not_lt.mpr h)

theorem requireRoom_of_lt {cap n : Nat} {s : State} (go : Result) (h : cap < s.buf.length + n) :
    requireRoom cap n s go = .next (s.withStatus .errBufOverflow) := if_pos h

/-- Either there is room and the command goes on, or it ends with ERR_BUF_OVERFLOW. -/
theorem requireRoom_cases {cap n : Nat} {s t : State} {go : Result} (h : requireRoom cap n s go = .next t) :
    (s.buf.length + n ≤ cap ∧ go = .next t) ∨ (cap < s.buf.length + n ∧ t = s.withStatus .errBufOverflow) := by
  by_cases hc : cap < s.buf.length + n
  · rw [requireRoom_of_lt go hc] at h; injection h with h; exact .inr ⟨hc, h.symm⟩
  · rw [requireRoom_of_le go (by omega)] at h; exact .inl ⟨by omega, h⟩

theorem requireLen_of_le {n : Nat} {c : StatusCode} {s : State} (go : Result) (h : n ≤ s.buf.length) :
    requireLen n c s go = go := if_neg (Nat.not_lt.mpr h)

theorem requireLen_of_lt {n : Nat} {c : StatusCode} {s : State} (go : Result) (h : s.buf.length < n) :
    requireLen n c s go = .next (s.withStatus c) := if_pos h

/-- Either the input is long enough and the decode goes on, or it ends with its truncation error. -/
theorem requireLen_cases {n : Nat} {c : StatusCode} {s t : State} {go : Result}
    (h : requireLen n c s go = .next t) :
    (n ≤ s.buf.length ∧ go = .next t) ∨ (s.buf.length < n ∧ t = s.withStatus c) := by
  by_cases hc : s.buf.length < n
  · rw [requireLen_of_lt go hc] at h; injection h with h; exact .inr ⟨hc, h.symm⟩
  · rw [requireLen_of_le go (by omega)] at h; exact .inl ⟨by omega, h⟩

/-- The checks depend on the buffer only: two states with the same buffer pass or fail together. -/
theorem requireRoom_congr {cap n : Nat} {s s' : State} {go go' : Result} (hb : s'.buf = s.buf)
    (hs : s'.withStatus .errBufOverflow = s.withStatus .errBufOverflow) (hg : go' = go) :
    requireRoom cap n s' go' = requireRoom cap n s go := by
  by_cases hc : cap < s.buf.length + n
  · rw [requireRoom_of_lt _ (by rw [hb]; exact hc), requireRoom_of_lt _ hc, hs]
  · rw [requireRoom_of_le _ (by rw [hb]; omega), requireRoom_of_le _ (by omega), hg]

theorem requireLen_congr {n : Nat} {c : StatusCode} {s s' : State} {go go' : Result} (hb : s'.buf = s.buf)
    (hs : s'.withStatus c = s.withStatus c) (hg : go' = go) : requireLen n c s' go' = requireLen n c s go := by
  by_cases hc : s.buf.length < n
  · rw [requireLen_of_lt _ (by rw [hb]; exact hc), requireLen_of_lt _ hc, hs]
  · rw [requireLen_of_le _ (by rw [hb]; omega), requireLen_of_le _ (by omega), hg]

theorem requireIndex_of_read {i : Nat} {s : State} {b : Byte} (go : Byte → Result)
    (h : Memory.read s.buf i = some b) : requireIndex i s go = go b := by rw [requireIndex, h]

theorem requireIndex_of_le {i : Nat} {s : State} (go : Byte → Result) (h : s.buf.length ≤ i) :
    requireIndex i s go = .next (s.withStatus .errBadIndex) := by
  rw [requireIndex, Memory.read, List.getElem?_eq_none h, raise_eq]

/-- Either the index names a valid byte and the command goes on with it, or it ends with ERR_BAD_INDEX. -/
theorem requireIndex_cases {i : Nat} {s t : State} {go : Byte → Result} (h : requireIndex i s go = .next t) :
    (∃ b, Memory.read s.buf i = some b ∧ go b = .next t) ∨
      (s.buf.length ≤ i ∧ t = s.withStatus .errBadIndex) := by
  cases hr : Memory.read s.buf i with
  | some b => rw [requireIndex_of_read go hr] at h; exact .inl ⟨b, rfl, h⟩
  | none =>
    have hi : s.buf.length ≤ i := List.getElem?_eq_none_iff.mp hr
    rw [requireIndex_of_le go hi] at h; injection h with h; exact .inr ⟨hi, h.symm⟩

/-- What an FSM command does (R152). -/
theorem deliver_eq (e : Event) (s : State) :
    deliver e s = .next ((s.withFsm (delta s.tcpState e).1 s.tcpState).withStatus (delta s.tcpState e).2) := rfl

/-! ## The command port -/

@[simp] theorem takeCommand_nil {s : State} (h : s.port = []) : s.takeCommand = none := by
  rw [State.takeCommand, h]

@[simp] theorem takeCommand_cons {s : State} {w : CommandWord} {rest : List CommandWord} (h : s.port = w :: rest) :
    s.takeCommand = some (w, s.withPort rest) := by rw [State.takeCommand, h]

theorem takeCommand_present (s : State) (w : CommandWord) : (s.present w).takeCommand = some (w, s) := rfl

/-- A step of a word the host presents: the command it selects, or the illegal one (R7, R65). -/
theorem issue_eq (w : CommandWord) (s : State) :
    issue w s = match decode w with
      | .instr i => exec i s
      | .illegal _ => .next (s.withStatus .errIllegalCmd) := rfl

theorem issue_of_instr {w : CommandWord} {i : Instr} (s : State) (h : decode w = .instr i) :
    issue w s = exec i s := by rw [issue_eq, h]

theorem issue_of_illegal {w : CommandWord} {e : DecodeError} (s : State) (h : decode w = .illegal e) :
    issue w s = .next (s.withStatus .errIllegalCmd) := by rw [issue_eq, h]

/-- A command whose OP byte decodes by format N has one word; the other words with that byte are illegal (R61). -/
theorem onlyWord_of_formatN (word : CommandWord) (i : Instr) (h : decode word = .instr i)
    (hop : ∀ w, opField w = opField word → decode w = formatN w i)
    (hz : aField word = 0 ∧ immField word = 0) : OnlyWord word i := by
  refine ⟨h, fun w s ho hne => ?_⟩
  have hill : ∃ e, decode w = .illegal e := by
    rw [decode_illegal_iff]
    intro j hj
    rw [hop w ho] at hj
    simp only [formatN_eq_instr] at hj
    apply hne
    rw [← mkWord_fields w, ← mkWord_fields word, ho, hj.1, hj.2.1, hz.1, hz.2]
  obtain ⟨e, he⟩ := hill
  exact issue_of_illegal s he

/-- A step of the core, for runs (Host/Core.lean). -/
theorem run_succ (M : Host.Core) (n : Nat) (s t : M.State) (h : M.step s = .next t) :
    M.run (n + 1) s = M.run n t := by
  rw [Host.Core.run.eq_def]; simp only [h]

/-! ## The buffer -/

@[simp] theorem Memory.length_write (m : Memory) (i : Nat) (b : Byte) : (Memory.write m i b).length = m.length := by
  simp [Memory.write]

theorem Memory.read_write_same (m : Memory) (i : Nat) (b : Byte) (h : i < m.length) :
    Memory.read (Memory.write m i b) i = some b := by simp [Memory.read, Memory.write, h]

theorem Memory.read_write_other (m : Memory) (i a : Nat) (b : Byte) (h : a ≠ i) :
    Memory.read (Memory.write m i b) a = Memory.read m a := by
  simp [Memory.read, Memory.write, List.getElem?_set_ne (Ne.symm h)]

theorem Memory.read_push_below (m : Memory) (bs : List Byte) (a : Nat) (h : a < m.length) :
    Memory.read (Memory.push m bs) a = Memory.read m a := by
  simp [Memory.read, Memory.push, List.getElem?_append_left h]

theorem Memory.read_prepend (m : Memory) (h : List Byte) (a : Nat) :
    Memory.read (Memory.prepend m h) (h.length + a) = Memory.read m a := by
  rw [Memory.read, Memory.prepend, List.getElem?_append_right (by omega), Nat.add_sub_cancel_left, Memory.read]

theorem Memory.read_strip (m : Memory) (k a : Nat) : Memory.read (Memory.strip m k) a = Memory.read m (k + a) := by
  simp [Memory.read, Memory.strip]

/-- Stripping a header that has just been prepended gives the content back (R55, R56). -/
theorem Memory.strip_prepend (m : Memory) (h : List Byte) (k : Nat) (hk : h.length = k) :
    Memory.strip (Memory.prepend m h) k = m := by
  subst hk; simp [Memory.strip, Memory.prepend]

theorem Memory.wf_iff (m : Memory) : Memory.wf m = true ↔ m.length ≤ Config.bufMax := by simp [Memory.wf]

theorem Memory.wf_nil : Memory.wf [] = true := by simp [Memory.wf]

theorem Memory.wf_write (m : Memory) (i : Nat) (b : Byte) (h : Memory.wf m = true) :
    Memory.wf (Memory.write m i b) = true := by rw [Memory.wf_iff] at *; simpa using h

theorem Memory.wf_push (m : Memory) (bs : List Byte) (h : m.length + bs.length ≤ Config.bufMax) :
    Memory.wf (Memory.push m bs) = true := by rw [Memory.wf_iff]; simpa [Memory.push] using h

theorem Memory.wf_prepend (m : Memory) (bs : List Byte) (h : m.length + bs.length ≤ Config.bufMax) :
    Memory.wf (Memory.prepend m bs) = true := by rw [Memory.wf_iff]; simp [Memory.prepend]; omega

theorem Memory.wf_strip (m : Memory) (k : Nat) (h : Memory.wf m = true) : Memory.wf (Memory.strip m k) = true := by
  rw [Memory.wf_iff] at *; simp [Memory.strip]; omega

theorem Memory.wf_reset : Memory.wf State.reset.buf = true := Memory.wf_nil

/-- The view as (address, byte) pairs lists each valid address once, in rising order, with the byte read there. -/
theorem Memory.getElem?_cells (m : Memory) (i : Nat) :
    (Memory.cells m)[i]? = (Memory.read m i).map (fun b => (i, b)) := by
  simp [Memory.cells, Memory.read, List.getElem?_map, List.getElem?_zipIdx, Option.map_map, Function.comp_def]

theorem Memory.cells_rising (m : Memory) : (Memory.cells m).Pairwise (fun p q => p.1 < q.1) := by
  rw [List.pairwise_iff_getElem]
  intro i j hi hj hij
  have h : ∀ k (hk : k < (Memory.cells m).length), (Memory.cells m)[k].1 = k := by
    intro k hk
    have hc := Memory.getElem?_cells m k
    rw [List.getElem?_eq_getElem hk] at hc
    cases hr : Memory.read m k with
    | none => simp [hr] at hc
    | some b => rw [hr] at hc; simp at hc; rw [hc]
  rw [h i hi, h j hj]; exact hij

end Machine

end Sys2Proof
end

