-- ==== Sys2Proof/Laws/Codecs.lean ====
section
/-! SUPPORT. The three header codecs (spec/42_ethernet.md, 43_ipv4.md, 44_tcp.md): header lengths, what a decode reads
from an encoded header, and the sum of a header with a value in its checksum field. -/

namespace Sys2Proof.Machine

/-! ## A value put together from its bytes -/

theorem join_two (v : BitVec 16) : v.extractLsb' 8 8 ++ v.extractLsb' 0 8 = v := by
  rw [← fromBe_two, ← be_two, fromBe_be_two]

theorem join_four (v : BitVec 32) :
    v.extractLsb' 24 8 ++ v.extractLsb' 16 8 ++ v.extractLsb' 8 8 ++ v.extractLsb' 0 8 = v := by
  rw [← fromBe_four, ← be_four, fromBe_be_four]

theorem join_six (v : BitVec 48) :
    v.extractLsb' 40 8 ++ v.extractLsb' 32 8 ++ v.extractLsb' 24 8 ++ v.extractLsb' 16 8 ++ v.extractLsb' 8 8 ++
      v.extractLsb' 0 8 = v := by
  rw [← fromBe_six, ← be_six, fromBe_be_six]

/-! ## Lengths (R27) -/

@[simp] theorem ethHdrBytes_length (r : EthRegs) : (ethHdrBytes r).length = 14 := by simp [ethHdrBytes]

@[simp] theorem ip4HdrBytes_length (r : Ip4Regs) (ck : BitVec 16) : (ip4HdrBytes r ck).length = 20 := by
  simp [ip4HdrBytes]

@[simp] theorem tcpHdrBytes_length (r : TcpRegs) (ck : BitVec 16) : (tcpHdrBytes r ck).length = 20 := by
  simp [tcpHdrBytes]

@[simp] theorem tcpPseudoHeader_length (a b : BitVec 32) (n : Nat) : (tcpPseudoHeader a b n).length = 12 := by
  simp [tcpPseudoHeader]

/-! ## Decoding what an encode wrote -/

theorem ethRegsOf_hdr (r : EthRegs) (m : List Byte) : ethRegsOf (ethHdrBytes r ++ m) = r := by
  simp only [ethRegsOf, ethHdrBytes, be_two, be_six]
  simp [slice, join_two, join_six]

/-- The decode overrides the two fields the encode does not read (R120). -/
theorem ip4RegsOf_hdr (r : Ip4Regs) (ck : BitVec 16) (m : List Byte) :
    ip4RegsOf (ip4HdrBytes r ck ++ m) = { r with verIhl := 0x45#8, headerChecksum := ck } := by
  simp only [ip4RegsOf, ip4HdrBytes, be_two, be_four]
  simp [slice, byteAt, Config.ip4VerIhlByte, join_two, join_four]

/-- The decode overrides the field the encode does not read (R135). -/
theorem tcpRegsOf_hdr (r : TcpRegs) (ck : BitVec 16) (m : List Byte) :
    tcpRegsOf (tcpHdrBytes r ck ++ m) = { r with dataOffset := 5#4, checksum := ck } := by
  simp only [tcpRegsOf, tcpHdrBytes, dataOffsetOf, be_two, be_four]
  simp [slice, byteAt, Config.tcpDataOffsetByte, join_two, join_four]

theorem dataOffsetOf_hdr (r : TcpRegs) (ck : BitVec 16) (m : List Byte) :
    dataOffsetOf (tcpHdrBytes r ck ++ m) = 5#4 := congrArg TcpRegs.dataOffset (tcpRegsOf_hdr r ck m)

/-- Encoding what a decode read gives the header bytes back (R112). -/
theorem ethHdr_of_regs (m : List Byte) (h : 14 ≤ m.length) : ethHdrBytes (ethRegsOf m) ++ m.drop 14 = m := by
  have field (s : List Byte) (n w : Nat) (hs : s.length = n) (hw : 8 * n = w) : be n (fromBe w s) = s := by
    subst hs; exact be_fromBe s (by omega)
  rw [ethHdrBytes, ethRegsOf]
  dsimp only
  rw [field _ 6 48 (by simp [slice]; omega) rfl, field _ 6 48 (by simp [slice]; omega) rfl,
    field _ 2 16 (by simp [slice]; omega) rfl]
  simp only [slice]
  match m, h with
  | _ :: _ :: _ :: _ :: _ :: _ :: _ :: _ :: _ :: _ :: _ :: _ :: _ :: _ :: _, _ => simp

/-! ## The checksum field adds its value to the header's sum -/

theorem wordSum_ip4Hdr (r : Ip4Regs) (ck : BitVec 16) :
    wordSum (ip4HdrBytes r ck) = wordSum (ip4HdrBytes r 0) + ck.toNat := by
  simp only [ip4HdrBytes, be_two, be_four]
  simp only [List.cons_append, List.nil_append, wordSum]
  have := split16 ck
  simp; omega

theorem wordSum_tcpHdr (r : TcpRegs) (ck : BitVec 16) :
    wordSum (tcpHdrBytes r ck) = wordSum (tcpHdrBytes r 0) + ck.toNat := by
  simp only [tcpHdrBytes, be_two, be_four]
  simp only [List.cons_append, List.nil_append, wordSum]
  have := split16 ck
  simp; omega

end Sys2Proof.Machine
end

