-- ==== Sys2Proof/Laws/Registers.lean ====
section
/-! SUPPORT. The register space (spec/10_state.md R11): indices, destinations, and what each named update of the state
leaves in the registers. -/

namespace Sys2Proof.Machine

theorem regOfIndex_index (r : RegName) : regOfIndex r.index = some r := by cases r <;> rfl

theorem index_of_regOfIndex {i : BitVec 8} {r : RegName} (h : regOfIndex i = some r) : r.index = i := by
  have := List.find?_some h
  simpa using this

/-- A destination of WR or MOV is a read-write register with that index. -/
theorem destOfIndex_eq_some_iff (i : BitVec 8) (r : RegName) :
    destOfIndex i = some r ↔ regOfIndex i = some r ∧ r.access = .rw := by
  rw [destOfIndex, Option.filter_eq_some_iff]; simp

theorem destOfIndex_eq_none_iff (i : BitVec 8) :
    destOfIndex i = none ↔ ∀ r, regOfIndex i = some r → r.access = .ro := by
  constructor
  · intro h r hr
    cases ha : r.access with
    | ro => rfl
    | rw => rw [(destOfIndex_eq_some_iff i r).mpr ⟨hr, ha⟩] at h; cases h
  · intro h
    cases hd : destOfIndex i with
    | none => rfl
    | some r =>
      obtain ⟨hr, ha⟩ := (destOfIndex_eq_some_iff i r).mp hd
      rw [h r hr] at ha; cases ha

/-! ## Writing a register leaves everything but the header registers -/

section
variable (s : State) (r : RegName) (v : Datum)

@[simp] theorem writeReg_status : (s.writeReg r v).status = s.status := by cases r <;> rfl
@[simp] theorem writeReg_dout : (s.writeReg r v).dout = s.dout := by cases r <;> rfl
@[simp] theorem writeReg_csumResult : (s.writeReg r v).csumResult = s.csumResult := by cases r <;> rfl
@[simp] theorem writeReg_tcpState : (s.writeReg r v).tcpState = s.tcpState := by cases r <;> rfl
@[simp] theorem writeReg_tcpPrevState : (s.writeReg r v).tcpPrevState = s.tcpPrevState := by cases r <;> rfl
@[simp] theorem writeReg_buf : (s.writeReg r v).buf = s.buf := by cases r <;> rfl
@[simp] theorem writeReg_port : (s.writeReg r v).port = s.port := by cases r <;> rfl

theorem writeReg_withStatus (c : StatusCode) : (s.withStatus c).writeReg r v = (s.writeReg r v).withStatus c := by
  cases r <;> rfl

theorem writeReg_withPort (p : List CommandWord) : (s.withPort p).writeReg r v = (s.writeReg r v).withPort p := by
  cases r <;> rfl

end

/-! ## Reading a register after a named update -/

theorem readReg_withStatus (s : State) (c : StatusCode) (r : RegName) (h : r ≠ .status) :
    (s.withStatus c).readReg r = s.readReg r := by cases r <;> first | rfl | exact absurd rfl h

theorem readReg_withDout (s : State) (v : Datum) (r : RegName) (h : r ≠ .dout) :
    (s.withDout v).readReg r = s.readReg r := by cases r <;> first | rfl | exact absurd rfl h

theorem readReg_withCsumResult (s : State) (v : BitVec 16) (r : RegName) (h : r ≠ .csumResult) :
    (s.withCsumResult v).readReg r = s.readReg r := by cases r <;> first | rfl | exact absurd rfl h

theorem readReg_withFsm (s : State) (n p : TcpState) (r : RegName) (h : r ≠ .tcpState) (h' : r ≠ .tcpPrevState) :
    (s.withFsm n p).readReg r = s.readReg r := by
  cases r <;> first | rfl | exact absurd rfl h | exact absurd rfl h'

theorem readReg_withBuf (s : State) (m : Memory) (r : RegName) (h : r ≠ .len) :
    (s.withBuf m).readReg r = s.readReg r := by cases r <;> first | rfl | exact absurd rfl h

@[simp] theorem readReg_withPort (s : State) (p : List CommandWord) (r : RegName) :
    (s.withPort p).readReg r = s.readReg r := by cases r <;> rfl

@[simp] theorem readReg_withStatus_status (s : State) (c : StatusCode) :
    (s.withStatus c).readReg .status = c.code.setWidth 48 := rfl

end Sys2Proof.Machine
end

