-- ==== Sys2Proof/Laws/Exec.lean ====
section
/-! SUPPORT. No command reads or writes the host's command port (spec/00_scope.md R7): `exec` commutes with replacing
the words in it. -/

namespace Sys2Proof.Machine

theorem exec_withPort (i : Instr) (s t : State) (p : List CommandWord) (h : exec i s = .next t) :
    exec i (s.withPort p) = .next (t.withPort p) := by
  cases i <;> simp only [exec] at h ⊢
  case wr rd v =>
    simp only [execWr, complete_eq, raise_eq] at h ⊢
    cases hd : destOfIndex rd <;> simp only [hd] at h ⊢ <;> cases h
    · rfl
    · rw [writeReg_withPort]; rfl
  case rd r =>
    simp only [execRd, complete_eq, raise_eq] at h ⊢
    cases hd : regOfIndex r <;> simp only [hd] at h ⊢ <;> cases h
    · rfl
    · rw [readReg_withPort]; rfl
  case mov d r =>
    simp only [execMov, complete_eq, raise_eq] at h ⊢
    cases hd : destOfIndex d <;> cases hr : regOfIndex r <;> simp only [hd, hr] at h ⊢ <;> cases h
    · rfl
    · rfl
    · rfl
    · rw [readReg_withPort, writeReg_withPort]; rfl
  case bpush n v =>
    unfold execBpush at h ⊢
    split at h <;> rename_i hc
    · rw [if_pos hc]
      rcases requireRoom_cases h with ⟨hl, h⟩ | ⟨hl, rfl⟩
      · rw [requireRoom_of_le _ (by exact hl)]; cases h; rfl
      · rw [requireRoom_of_lt _ (by exact hl)]; rfl
    · rw [if_neg hc]; cases h; rfl
  case brd x =>
    unfold execBrd at h ⊢
    rcases requireIndex_cases h with ⟨b, hl, h⟩ | ⟨hl, rfl⟩
    · rw [requireIndex_of_read _ (by exact hl)]; cases h; rfl
    · rw [requireIndex_of_le _ (by exact hl)]; rfl
  case bwr x b =>
    unfold execBwr at h ⊢
    rcases requireIndex_cases h with ⟨b, hl, h⟩ | ⟨hl, rfl⟩
    · rw [requireIndex_of_read _ (by exact hl)]; cases h; rfl
    · rw [requireIndex_of_le _ (by exact hl)]; rfl
  case ethEnc =>
    unfold execEthEnc at h ⊢
    rcases requireRoom_cases h with ⟨hl, h⟩ | ⟨hl, rfl⟩
    · rw [requireRoom_of_le _ (by exact hl)]; cases h; rfl
    · rw [requireRoom_of_lt _ (by exact hl)]; rfl
  case ip4Enc =>
    unfold execIp4Enc at h ⊢
    rcases requireRoom_cases h with ⟨hl, h⟩ | ⟨hl, rfl⟩
    · rw [requireRoom_of_le _ (by exact hl)]; cases h; rfl
    · rw [requireRoom_of_lt _ (by exact hl)]; rfl
  case tcpEnc =>
    unfold execTcpEnc at h ⊢
    rcases requireRoom_cases h with ⟨hl, h⟩ | ⟨hl, rfl⟩
    · rw [requireRoom_of_le _ (by exact hl)]; cases h; rfl
    · rw [requireRoom_of_lt _ (by exact hl)]; rfl
  case tcpCsum =>
    unfold execTcpCsum at h ⊢
    rcases requireRoom_cases h with ⟨hl, h⟩ | ⟨hl, rfl⟩
    · rw [requireRoom_of_le _ (by exact hl)]; cases h; rfl
    · rw [requireRoom_of_lt _ (by exact hl)]; rfl
  case ethDec =>
    unfold execEthDec at h ⊢
    rcases requireLen_cases h with ⟨hl, h⟩ | ⟨hl, rfl⟩
    · rw [requireLen_of_le _ (by exact hl)]; cases h; rfl
    · rw [requireLen_of_lt _ (by exact hl)]; rfl
  case ip4Dec =>
    unfold execIp4Dec at h ⊢
    rcases requireLen_cases h with ⟨hl, h⟩ | ⟨hl, rfl⟩
    · rw [requireLen_of_le _ (by exact hl)]; cases h; rfl
    · rw [requireLen_of_lt _ (by exact hl)]; rfl
  case tcpDec =>
    unfold execTcpDec at h ⊢
    rcases requireLen_cases h with ⟨hl, h⟩ | ⟨hl, rfl⟩
    · rw [requireLen_of_le _ (by exact hl)]; cases h; rfl
    · rw [requireLen_of_lt _ (by exact hl)]; rfl
  all_goals (cases h; rfl)

end Sys2Proof.Machine
end

