-- ==== Sys2Proof/Laws/PerInstr.lean ====
section
/-! SUPPORT. Facts about every command as syntax, one lemma per constructor. `RowSelects`: the word of a well-formed
command selects a row of the opcode map with the command's mnemonic (spec/30_encoding.md R63). -/

namespace Sys2Proof

/-! ## Masks -/

theorem mkWord_and (o a p b : BitVec 8) (v m : Datum) :
    mkWord o a v &&& mkWord p b m = mkWord (o &&& p) (a &&& b) (v &&& m) := by
  apply BitVec.eq_of_getLsbD_eq
  intro i hi
  rw [BitVec.getLsbD_and, mkWord_getLsbD, mkWord_getLsbD, mkWord_getLsbD]
  split
  · rw [BitVec.getLsbD_and]
  · split <;> rw [BitVec.getLsbD_and]

/-- A mask of all bits from `lo` on leaves nothing exactly of the data below 2^lo. -/
theorem and_highMask_eq_zero_iff (lo : Nat) (m v : Datum) (hm : ∀ i : Fin 48, m.getLsbD i = decide (lo ≤ i.val)) :
    v &&& m = 0 ↔ v.toNat < 2 ^ lo := by
  constructor
  · intro h
    by_contra hlt
    obtain ⟨i, hi, hv⟩ := Nat.exists_ge_and_testBit_of_ge_two_pow (Nat.le_of_not_lt hlt)
    have hi48 : i < 48 := by
      by_contra h48
      rw [Nat.testBit_lt_two_pow (lt_of_lt_of_le v.isLt (Nat.pow_le_pow_right (by norm_num) (by omega)))] at hv
      cases hv
    have hb := congrArg (fun x : Datum => x.getLsbD i) h
    simp only [BitVec.getLsbD_and, hm ⟨i, hi48⟩] at hb
    rw [show v.getLsbD i = v.toNat.testBit i from rfl, hv] at hb
    simp [hi] at hb
  · intro h
    apply BitVec.eq_of_getLsbD_eq
    intro i hi
    rw [BitVec.getLsbD_and, hm ⟨i, hi⟩]
    by_cases hlo : lo ≤ i
    · rw [show v.getLsbD i = v.toNat.testBit i from rfl,
        Nat.testBit_lt_two_pow (lt_of_lt_of_le h (Nat.pow_le_pow_right (by norm_num) hlo))]
      simp
    · simp [hlo]

theorem and_mask40_eq_zero_iff (v : Datum) : v &&& 0xFFFFFFFFFF00#48 = 0 ↔ v.toNat < 2 ^ 8 :=
  and_highMask_eq_zero_iff 8 _ v (by decide)

theorem and_mask32_eq_zero_iff (v : Datum) : v &&& 0xFFFFFFFF0000#48 = 0 ↔ v.toNat < 2 ^ 16 :=
  and_highMask_eq_zero_iff 16 _ v (by decide)

/-- A word selects a row when its fields under the row's mask are the row's pattern. -/
theorem selects_mkWord (r : OpcodeRow) (o a : BitVec 8) (v : Datum) (p b : BitVec 8) (m : Datum)
    (hm : r.mask = mkWord p b m) (hp : r.pattern = mkWord o 0 0) (ho : o &&& p = o) (ha : a &&& b = 0)
    (hv : v &&& m = 0) (hpush : r.push = false ∨ pushOperandsOk a v = true) : r.selects (mkWord o a v) = true := by
  rw [OpcodeRow.selects, hm, mkWord_and, ho, ha, hv, hp, aField_mkWord, immField_mkWord]
  rcases hpush with h | h <;> simp [h]

/-! ## RowSelects -/

/-- The word of the command selects a row of the opcode map that bears the command's mnemonic. -/
def Laws.RowSelects.Statement (i : Instr) : Prop :=
  i.wellFormed = true → ∃ r ∈ opcodeMap, r.mnemonic = i.mnemonic ∧ r.selects (encode i) = true

theorem Laws.RowSelects.nop : Laws.RowSelects.Statement .nop := fun _ => by decide

theorem Laws.RowSelects.rst : Laws.RowSelects.Statement .rst := fun _ => by decide

theorem Laws.RowSelects.wr (d : BitVec 8) (v : Datum) : Laws.RowSelects.Statement (.wr d v) := fun _ =>
  ⟨⟨"WR", 0x0200000000000000, 0xFF00000000000000, false⟩, by decide, rfl,
    selects_mkWord _ _ _ _ 0xFF#8 0 0 (by decide) (by decide) (by decide) BitVec.and_zero
      BitVec.and_zero (.inl rfl)⟩

theorem Laws.RowSelects.rd (r : BitVec 8) : Laws.RowSelects.Statement (.rd r) := fun _ =>
  ⟨⟨"RD", 0x0300000000000000, 0xFF00FFFFFFFFFFFF, false⟩, by decide, rfl,
    selects_mkWord _ _ _ _ 0xFF#8 0 0xFFFFFFFFFFFF#48 (by decide) (by decide) (by decide) BitVec.and_zero
      BitVec.zero_and (.inl rfl)⟩

theorem Laws.RowSelects.mov (d r : BitVec 8) : Laws.RowSelects.Statement (.mov d r) := fun _ =>
  ⟨⟨"MOV", 0x0400000000000000, 0xFF00FFFFFFFFFF00, false⟩, by decide, rfl,
    selects_mkWord _ _ _ _ 0xFF#8 0 0xFFFFFFFFFF00#48 (by decide) (by decide) (by decide) BitVec.and_zero
      ((and_mask40_eq_zero_iff _).mpr (setWidth48_toNat_lt r (by norm_num))) (.inl rfl)⟩

theorem Laws.RowSelects.bclr : Laws.RowSelects.Statement .bclr := fun _ => by decide

theorem Laws.RowSelects.bpush (n : BitVec 8) (v : Datum) : Laws.RowSelects.Statement (.bpush n v) := fun h =>
  ⟨⟨"BPUSH", 0x0900000000000000, 0xFF00000000000000, true⟩, by decide, rfl,
    selects_mkWord _ _ _ _ 0xFF#8 0 0 (by decide) (by decide) (by decide) BitVec.and_zero
      BitVec.and_zero (.inr h)⟩

theorem Laws.RowSelects.brd (x : BitVec 16) : Laws.RowSelects.Statement (.brd x) := fun _ =>
  ⟨⟨"BRD", 0x0A00000000000000, 0xFFFFFFFFFFFF0000, false⟩, by decide, rfl,
    selects_mkWord _ _ _ _ 0xFF#8 0xFF#8 0xFFFFFFFF0000#48 (by decide) (by decide) (by decide) BitVec.zero_and
      ((and_mask32_eq_zero_iff _).mpr (setWidth48_toNat_lt x (by norm_num))) (.inl rfl)⟩

theorem Laws.RowSelects.bwr (x : BitVec 16) (b : Byte) : Laws.RowSelects.Statement (.bwr x b) := fun _ =>
  ⟨⟨"BWR", 0x0B00000000000000, 0xFF00FFFFFFFF0000, false⟩, by decide, rfl,
    selects_mkWord _ _ _ _ 0xFF#8 0 0xFFFFFFFF0000#48 (by decide) (by decide) (by decide) BitVec.and_zero
      ((and_mask32_eq_zero_iff _).mpr (setWidth48_toNat_lt x (by norm_num))) (.inl rfl)⟩

theorem Laws.RowSelects.csumBuf : Laws.RowSelects.Statement .csumBuf := fun _ => by decide

theorem Laws.RowSelects.ethEnc : Laws.RowSelects.Statement .ethEnc := fun _ => by decide

theorem Laws.RowSelects.ethDec : Laws.RowSelects.Statement .ethDec := fun _ => by decide

theorem Laws.RowSelects.ip4Enc : Laws.RowSelects.Statement .ip4Enc := fun _ => by decide

theorem Laws.RowSelects.ip4Dec : Laws.RowSelects.Statement .ip4Dec := fun _ => by decide

theorem Laws.RowSelects.ip4Csum : Laws.RowSelects.Statement .ip4Csum := fun _ => by decide

theorem Laws.RowSelects.tcpEnc : Laws.RowSelects.Statement .tcpEnc := fun _ => by decide

theorem Laws.RowSelects.tcpDec : Laws.RowSelects.Statement .tcpDec := fun _ => by decide

theorem Laws.RowSelects.tcpCsum : Laws.RowSelects.Statement .tcpCsum := fun _ => by decide

theorem Laws.RowSelects.fsmRcvSyn : Laws.RowSelects.Statement .fsmRcvSyn := fun _ => by decide

theorem Laws.RowSelects.fsmRcvSynack : Laws.RowSelects.Statement .fsmRcvSynack := fun _ => by decide

theorem Laws.RowSelects.fsmRcvAck : Laws.RowSelects.Statement .fsmRcvAck := fun _ => by decide

theorem Laws.RowSelects.fsmRcvFin : Laws.RowSelects.Statement .fsmRcvFin := fun _ => by decide

theorem Laws.RowSelects.fsmRcvRst : Laws.RowSelects.Statement .fsmRcvRst := fun _ => by decide

theorem Laws.RowSelects.fsmSndSyn : Laws.RowSelects.Statement .fsmSndSyn := fun _ => by decide

theorem Laws.RowSelects.fsmSndFin : Laws.RowSelects.Statement .fsmSndFin := fun _ => by decide

theorem Laws.RowSelects.fsmSndAck : Laws.RowSelects.Statement .fsmSndAck := fun _ => by decide

end Sys2Proof
end

