-- ==== Sys2Proof/Tests/Slice0.lean ====
section
/-! SUPPORT. The model's own tests, their expected values from spec/95_test_vectors.md (the vector's id stands in the
name or the comment) or read off spec/30_encoding.md, and the witnesses: for every obligation with hypotheses, a concrete
state and operands that meet them, each clause at the edge of its range. -/

namespace Sys2Proof.Tests

open Sys2Proof.Machine

/-! ## Helpers -/

/-- The reset state with a buffer content. -/
def holding (bs : List Byte) : State := { State.reset with buf := bs }

/-- The state after the step of one command word, if there is one. -/
def after (w : CommandWord) (s : State) : Option State :=
  match issue w s with
  | .next t => some t
  | .fault _ => none
  | .refused _ => none

/-- The reset state with a buffer of zeros that leaves room for exactly `k` bytes. -/
def roomFor (k : Nat) : State := holding (List.replicate (Config.bufMax - k) 0#8)

theorem roomFor_length (k : Nat) (h : k ≤ 64) : (roomFor k).buf.length + k = Config.bufMax := by
  have := Config.bufMax_ge
  simp [roomFor, holding]; omega

/-! ## Well-formedness: an ill-formed term for each check of BPUSH (R61 format P; H23, H24, H25) -/

theorem test_wellFormed_push_count_zero : (Instr.bpush 0 0).wellFormed = false := by decide
theorem test_wellFormed_push_count_seven : (Instr.bpush 7 1).wellFormed = false := by decide
theorem test_wellFormed_push_bits_above : (Instr.bpush 1 0x100).wellFormed = false := by decide
theorem test_wellFormed_push_all_bits : (Instr.bpush 6 0xFFFFFFFFFFFF).wellFormed = true := by decide

/-! ## Decoding: words written out field by field from R60 and R61 -/

theorem test_decode_nop : decode 0b00000000_00000000_000000000000000000000000000000000000000000000000 = .instr .nop := by
  decide
theorem test_decode_rst : decode 0b00000001_00000000_000000000000000000000000000000000000000000000000 = .instr .rst := by
  decide
theorem test_decode_wr :
    decode 0b00000010_00010010_000000000000000000000000000000000000100000000000 = .instr (.wr 0x12 0x0800) := by decide
theorem test_decode_rd :
    decode 0b00000011_00000100_000000000000000000000000000000000000000000000000 = .instr (.rd 0x04) := by decide
theorem test_decode_mov :
    decode 0b00000100_00110111_000000000000000000000000000000000000000000000011 = .instr (.mov 0x37 0x03) := by decide
theorem test_decode_bclr : decode 0b00001000_00000000_000000000000000000000000000000000000000000000000 = .instr .bclr := by
  decide
theorem test_decode_bpush :
    decode 0b00001001_00000100_000000000000000000000000000000011111001000000011 = .instr (.bpush 4 0x0001F203) := by decide
theorem test_decode_brd :
    decode 0b00001010_00000000_000000000000000000000000000000000000000000001010 = .instr (.brd 10) := by decide
theorem test_decode_bwr :
    decode 0b00001011_10100011_000000000000000000000000000000000000000000010000 = .instr (.bwr 16 0xA3) := by decide
theorem test_decode_checksum_unit :
    decode 0b00010000_00000000_000000000000000000000000000000000000000000000000 = .instr .csumBuf := by decide
theorem test_decode_ethernet_unit :
    decode 0x2000000000000000 = .instr .ethEnc ∧ decode 0x2100000000000000 = .instr .ethDec := by decide
theorem test_decode_ipv4_unit :
    decode 0x3000000000000000 = .instr .ip4Enc ∧ decode 0x3100000000000000 = .instr .ip4Dec ∧
      decode 0x3200000000000000 = .instr .ip4Csum := by decide
theorem test_decode_tcp_unit :
    decode 0x4000000000000000 = .instr .tcpEnc ∧ decode 0x4100000000000000 = .instr .tcpDec ∧
      decode 0x4200000000000000 = .instr .tcpCsum := by decide
theorem test_decode_fsm_unit :
    decode 0x5000000000000000 = .instr .fsmRcvSyn ∧ decode 0x5100000000000000 = .instr .fsmRcvSynack ∧
      decode 0x5200000000000000 = .instr .fsmRcvAck ∧ decode 0x5300000000000000 = .instr .fsmRcvFin ∧
      decode 0x5400000000000000 = .instr .fsmRcvRst ∧ decode 0x5500000000000000 = .instr .fsmSndSyn ∧
      decode 0x5600000000000000 = .instr .fsmSndFin ∧ decode 0x5700000000000000 = .instr .fsmSndAck := by decide

/-- Reserved bits and bad operand fields: H12, H17, H23, H24, H25, H31, H34, K23, T17, X5, X7, X10. -/
theorem test_decode_reserved_bits :
    [0x0325000000000001#64, 0x0425000000000103, 0x0900000000000000, 0x0907000000000001, 0x0901000000000100,
      0x0A01000000000000, 0x0B00000000010000, 0x1000000000000001, 0x4100000000000100, 0x0001000000000000,
      0x0499000000000103, 0x0A00000000010000].map decode =
    [.illegal .nonzeroImm, .illegal .nonzeroImm, .illegal .badPush, .illegal .badPush, .illegal .badPush,
      .illegal .nonzeroA, .illegal .nonzeroImm, .illegal .nonzeroImm, .illegal .nonzeroImm, .illegal .nonzeroA,
      .illegal .nonzeroImm, .illegal .nonzeroImm] := by rfl

/-- Unassigned OP bytes: K24, F8, X1, X2, X3. -/
theorem test_decode_unassigned :
    [0x1100000000000000#64, 0x5800000000000000, 0x0600000000000000, 0xFF00000000000000, 0xFFFFFFFFFFFFFFFF].map decode =
      List.replicate 5 (.illegal .unassignedOpcode) := by rfl

/-- X1: only STATUS changes. -/
theorem test_illegal_X1 : after 0x0600000000000000 (holding [7]) = some { holding [7] with status := .errIllegalCmd } := by
  decide

/-- The host's two questions of a table word, on a row of each shape. -/
theorem test_table_word :
    decodeTableWord 64 0x0200000000000000 = some (.wr 0 0) ∧ decodeTableWord 64 0x0A00000000000000 = some (.brd 0) ∧
      decodeTableWord 64 0x0900000000000000 = none ∧ decodeTableWord 64 0x0901000000000000 = some (.bpush 1 0) := by
  decide

theorem test_fetch_word :
    step (State.reset.withFetchWord 64 0x0212000000000800) = exec (.wr 0x12 0x0800) State.reset := by rfl

/-! ## Host access -/

theorem test_nop_H1 : after 0x0000000000000000 { holding [7] with status := .errBadReg } = some (holding [7]) := by decide

theorem test_rst_H2 :
    after 0x0100000000000000 { holding [7] with tcpState := .closeWait, tcpPrevState := .established, dout := 5 } =
      some State.reset := by decide

/-- H4: a 4-bit register keeps the low 4 bits. -/
theorem test_wr_truncates_H4 :
    after 0x02340000000000FF State.reset = some { State.reset with tcp := { State.reset.tcp with dataOffset := 0xF } } := by
  decide

/-- H7, H8: a read-only register, an index that names none. -/
theorem test_wr_bad_register_H7_H8 :
    after 0x0202000000000001 (holding [7]) = some { holding [7] with status := .errBadReg } ∧
      after 0x0277000000000001 (holding [7]) = some { holding [7] with status := .errBadReg } := by decide

/-- H10: the read sees the outcome of the command before. -/
theorem test_rd_status_H10 :
    after 0x0300000000000000 { State.reset with status := .unexpectedEvent } = some { State.reset with dout := 0x04 } := by
  decide

theorem test_rd_missing_H11 :
    after 0x0399000000000000 { State.reset with dout := 9 } =
      some { State.reset with dout := 9, status := .errBadReg } := by decide

/-- H13: truncated to 8 bits. -/
theorem test_mov_truncates_H13 :
    after 0x0425000000000012 { State.reset with eth := { State.reset.eth with etherType := 0x3456 } } =
      some { State.reset with
        eth := { State.reset.eth with etherType := 0x3456 }
        ip4 := { State.reset.ip4 with ttl := 0x56 } } := by decide

/-- H15, H16, X9. -/
theorem test_mov_bad_register :
    after 0x0402000000000012 State.reset = some { State.reset with status := .errBadReg } ∧
      after 0x0425000000000099 State.reset = some { State.reset with status := .errBadReg } ∧
      after 0x0402000000000099 State.reset = some { State.reset with status := .errBadReg } := by decide

theorem test_bclr_H19 : after 0x0800000000000000 (holding [1, 2, 3, 4, 5, 6, 7, 8]) = some State.reset := by decide

theorem test_bpush_order_H20 : after 0x090400000001F203 (holding [9]) = some (holding [9, 0x00, 0x01, 0xF2, 0x03]) := by
  decide

/-- H26 at whatever capacity: five bytes where four fit, none is appended. -/
theorem test_bpush_overflow_H26 :
    exec (.bpush 5 0x0102030405) (roomFor 4) = .next { roomFor 4 with status := .errBufOverflow } := by
  have := roomFor_length 4 (by norm_num)
  change requireRoom _ _ _ _ = _
  rw [requireRoom_of_lt _ (by change _ < _ + 5; omega)]; rfl

theorem test_brd_H28 : after 0x0A00000000000001 (holding [0x45, 0x66]) = some { holding [0x45, 0x66] with dout := 0x66 } := by
  decide

/-- H30: the index LEN is out of range. -/
theorem test_brd_at_len_H30 :
    after 0x0A00000000000004 (holding [1, 2, 3, 4]) = some { holding [1, 2, 3, 4] with status := .errBadIndex } := by decide

theorem test_bwr_H32 : after 0x0BFF000000000002 (holding [0x00, 0x01, 0xF2, 0x03]) = some (holding [0x00, 0x01, 0xFF, 0x03]) :=
  by decide

theorem test_bwr_empty_H33 : after 0x0B5A000000000000 State.reset = some { State.reset with status := .errBadIndex } := by
  decide

/-! ## Checksum engine -/

/-- K1, K5, K6, K9, K10, K12, K13, K14, K15. -/
theorem test_checksum_vectors :
    checksum [] = 0xFFFF ∧ checksum [0xFF] = 0x00FF ∧ checksum [0xFF, 0xFF] = 0x0000 ∧
      checksum [0x12, 0x34, 0x56] = 0x97CB ∧ checksum [0xFF, 0xFF, 0x00, 0x01] = 0xFFFE ∧
      checksum [0xFF, 0xFF, 0xFF, 0xFF, 0x00, 0x01] = 0xFFFE ∧
      checksum [0x00, 0x01, 0xF2, 0x03, 0xF4, 0xF5, 0xF6, 0xF7] = 0x220D ∧
      checksum [0x00, 0x01, 0xF2, 0x03, 0xF4, 0xF5, 0xF6, 0xF7, 0x22, 0x0D] = 0x0000 ∧
      checksum [0x45, 0x00, 0x00, 0x28, 0x12, 0x34, 0x40, 0x00, 0x40, 0x06, 0x00, 0x00, 0xC0, 0xA8, 0x00, 0x01, 0xC0, 0xA8,
        0x00, 0x02] = 0xA748 := by decide

theorem test_csum_buf_K20 :
    (after 0x1000000000000000 (holding [0x00, 0x01, 0xF2, 0x03, 0xF4, 0xF5, 0xF6, 0xF7])).map (·.csumResult) =
      some 0x220D := by decide

/-! ## Ethernet -/

/-- E1. -/
theorem test_eth_enc_E1 :
    (after 0x2000000000000000
        { holding [0xCA, 0xFE] with eth := { dst := 0xFFFFFFFFFFFF, src := 0x001122334455, etherType := 0x0806 } }).map
        (·.buf) =
      some [0xFF, 0xFF, 0xFF, 0xFF, 0xFF, 0xFF, 0x00, 0x11, 0x22, 0x33, 0x44, 0x55, 0x08, 0x06, 0xCA, 0xFE] := by decide

/-- E8 at whatever capacity. -/
theorem test_eth_enc_overflow_E8 : exec .ethEnc (roomFor 13) = .next { roomFor 13 with status := .errBufOverflow } := by
  have := roomFor_length 13 (by norm_num)
  change requireRoom _ _ _ _ = _
  rw [requireRoom_of_lt _ (by change _ < _ + 14; omega)]; rfl

/-- E5. -/
theorem test_eth_dec_E5 :
    after 0x2100000000000000
        (holding [0x11, 0x22, 0x33, 0x44, 0x55, 0x66, 0x77, 0x88, 0x99, 0xAA, 0xBB, 0xCC, 0xDD, 0xEE]) =
      some { State.reset with eth := { dst := 0x112233445566, src := 0x778899AABBCC, etherType := 0xDDEE } } := by decide

/-- E4. -/
theorem test_eth_dec_short_E4 :
    after 0x2100000000000000 (holding [1, 2, 3, 4, 5, 6, 7, 8, 9, 10, 11, 12, 13]) =
      some { holding [1, 2, 3, 4, 5, 6, 7, 8, 9, 10, 11, 12, 13] with status := .errFrameTooSmall } := by decide

/-! ## IPv4 -/

/-- The registers of I2. -/
def ip4RegsI2 : Ip4Regs where
  verIhl         := 0x6F
  dscpEcn        := 0xB8
  totalLength    := 0x9999
  id             := 0xBEEF
  flagsFrag      := 0x2000
  ttl            := 1
  protocol       := 0x11
  headerChecksum := 0x1111
  src            := 0xC0000201
  dst            := 0xC6336407

/-- I2: the stale total length is used as it is. -/
theorem test_ip4_csum_I2 :
    (after 0x3200000000000000 { holding [1, 2, 3, 4, 5] with ip4 := ip4RegsI2 }).map (·.csumResult) = some 0x5470 := by
  decide

/-- I3: IP4_VER_IHL and IP4_HEADER_CHECKSUM are neither read nor written. -/
theorem test_ip4_enc_I3 :
    (after 0x3000000000000000 { holding [1, 2, 3, 4, 5] with ip4 := ip4RegsI2 }).map (fun t => (t.buf, t.ip4)) =
      some ([0x45, 0xB8, 0x00, 0x19, 0xBE, 0xEF, 0x20, 0x00, 0x01, 0x11, 0xED, 0xF0, 0xC0, 0x00, 0x02, 0x01, 0xC6, 0x33,
          0x64, 0x07, 0x01, 0x02, 0x03, 0x04, 0x05], { ip4RegsI2 with totalLength := 0x0019 }) := by decide

/-- I13 at whatever capacity. -/
theorem test_ip4_enc_overflow_I13 : exec .ip4Enc (roomFor 19) = .next { roomFor 19 with status := .errBufOverflow } := by
  have := roomFor_length 19 (by norm_num)
  change requireRoom _ _ _ _ = _
  rw [requireRoom_of_lt _ (by change _ < _ + 20; omega)]; rfl

/-- The packet of I6: IHL 6, four option bytes. -/
def packetI6 : List Byte :=
  [0x46, 0x10, 0x00, 0x1A, 0x00, 0x01, 0x20, 0x00, 0x80, 0x11, 0xAA, 0xBB, 0x01, 0x02, 0x03, 0x04, 0x05, 0x06, 0x07, 0x08,
    0x94, 0x04, 0x00, 0x00, 0xDE, 0xAD]

theorem test_ip4_dec_I6 :
    after 0x3100000000000000 (holding packetI6) =
      some { holding [0x94, 0x04, 0x00, 0x00, 0xDE, 0xAD] with
        ip4 := { verIhl := 0x46, dscpEcn := 0x10, totalLength := 0x001A, id := 0x0001, flagsFrag := 0x2000, ttl := 0x80,
                 protocol := 0x11, headerChecksum := 0xAABB, src := 0x01020304, dst := 0x05060708 } } := by decide

theorem test_ip4_dec_short_I9 :
    after 0x3100000000000000 (holding (packetI6.take 19)) =
      some { holding (packetI6.take 19) with status := .errPacketTooSmall } := by decide

/-! ## TCP -/

/-- The state of T1. -/
def stateT1 : State :=
  { holding [0x61, 0x62, 0x63] with
    ip4 := { State.reset.ip4 with src := 0x0A000001, dst := 0x0A000002 }
    tcp := { State.reset.tcp with srcPort := 0x0400, dstPort := 0x0017, seq := 0x01020304, ack := 0x05060708,
                                  flags := 0x18, window := 0x2000, checksum := 0xBEEF } }

theorem test_tcp_csum_T1 : after 0x4200000000000000 stateT1 = some { stateT1 with csumResult := 0xA339 } := by decide

/-- T15 at whatever capacity. -/
theorem test_tcp_csum_overflow_T15 : exec .tcpCsum (roomFor 19) = .next { roomFor 19 with status := .errBufOverflow } := by
  have := roomFor_length 19 (by norm_num)
  change requireRoom _ _ _ _ = _
  rw [requireRoom_of_lt _ (by change _ < _ + 20; omega)]; rfl

/-- T2: the stored checksum is emitted as it is. -/
theorem test_tcp_enc_T2 :
    (after 0x4000000000000000 stateT1).map (·.buf) =
      some [0x04, 0x00, 0x00, 0x17, 0x01, 0x02, 0x03, 0x04, 0x05, 0x06, 0x07, 0x08, 0x50, 0x18, 0x20, 0x00, 0xBE, 0xEF, 0x00,
        0x00, 0x61, 0x62, 0x63] := by decide

/-- T16 at whatever capacity. -/
theorem test_tcp_enc_overflow_T16 : exec .tcpEnc (roomFor 19) = .next { roomFor 19 with status := .errBufOverflow } := by
  have := roomFor_length 19 (by norm_num)
  change requireRoom _ _ _ _ = _
  rw [requireRoom_of_lt _ (by change _ < _ + 20; omega)]; rfl

/-- The segment of T4 with the given byte 12. -/
def segmentT4 (b12 : Byte) : List Byte :=
  [0x04, 0x00, 0x00, 0x17, 0x01, 0x02, 0x03, 0x04, 0x05, 0x06, 0x07, 0x08, b12, 0xFF, 0x20, 0x00, 0x12, 0x34, 0x00, 0x09,
    0x02, 0x04, 0x05, 0xB4, 0xCA, 0xFE]

theorem test_tcp_dec_T4 :
    after 0x4100000000000000 (holding (segmentT4 0x6A)) =
      some { holding [0xCA, 0xFE] with
        tcp := { srcPort := 0x0400, dstPort := 0x0017, seq := 0x01020304, ack := 0x05060708, dataOffset := 6,
                 flags := 0xFF, window := 0x2000, checksum := 0x1234, urgent := 0x0009 } } := by decide

/-- T5, T7, T9, T10, T11: too short; the payload for other data offsets. -/
theorem test_tcp_dec_edges :
    after 0x4100000000000000 (holding ((segmentT4 0x6A).take 19)) =
        some { holding ((segmentT4 0x6A).take 19) with status := .errSegmentTooSmall } ∧
      (after 0x4100000000000000 (holding ((segmentT4 0x6A).take 24))).map (·.buf) = some [] ∧
      (after 0x4100000000000000 (holding (segmentT4 0xF0))).map (·.buf) = some [] ∧
      (after 0x4100000000000000 (holding (segmentT4 0x40))).map (·.buf) = some ((segmentT4 0x40).drop 16) ∧
      (after 0x4100000000000000 (holding (segmentT4 0x0F))).map (·.buf) = some (segmentT4 0x0F) := by decide

/-! ## State machine: the whole table of section 2.6, a row per state, a column per command -/

/-- The eight commands' words in the order of the table's columns. -/
def fsmWords : List CommandWord :=
  [0x5000000000000000, 0x5100000000000000, 0x5200000000000000, 0x5300000000000000, 0x5400000000000000, 0x5500000000000000,
    0x5600000000000000, 0x5700000000000000]

/-- What the commands leave of a state: TCP_STATE and STATUS, with TCP_PREV_STATE the state before. -/
def fsmRow (q : TcpState) : List (Nat × Nat × Bool) :=
  fsmWords.map fun w =>
    match after w { State.reset with tcpState := q } with
    | some t => (t.tcpState.code.toNat, t.status.code.toNat, t.tcpPrevState == q)
    | none => (99, 99, false)

/-- A row of the table, as the spec writes it. -/
def cells (l : List (Nat × Nat)) : List (Nat × Nat × Bool) := l.map fun p => (p.1, p.2, true)

theorem test_fsm_rows_0_to_5 :
    fsmRow .closed = cells [(0, 4), (0, 4), (0, 4), (0, 4), (0, 0), (2, 0), (0, 4), (0, 0)] ∧
      fsmRow .listen = cells [(3, 0), (1, 4), (1, 4), (1, 4), (0, 0), (1, 4), (1, 4), (1, 0)] ∧
      fsmRow .synSent = cells [(2, 4), (4, 0), (2, 4), (2, 4), (0, 0), (2, 4), (2, 4), (2, 0)] ∧
      fsmRow .synReceived = cells [(3, 4), (3, 4), (4, 0), (3, 4), (0, 0), (3, 4), (3, 4), (3, 0)] ∧
      fsmRow .established = cells [(4, 4), (4, 4), (4, 4), (7, 0), (0, 0), (4, 4), (5, 0), (4, 0)] ∧
      fsmRow .finWait1 = cells [(5, 4), (5, 4), (5, 4), (8, 0), (0, 0), (5, 4), (5, 4), (5, 0)] := by decide

theorem test_fsm_rows_6_to_10 :
    fsmRow .finWait2 = cells [(6, 4), (6, 4), (6, 4), (10, 0), (0, 0), (6, 4), (6, 4), (6, 0)] ∧
      fsmRow .closeWait = cells [(7, 4), (7, 4), (7, 4), (7, 4), (0, 0), (7, 4), (9, 0), (7, 0)] ∧
      fsmRow .closing = cells [(8, 4), (8, 4), (8, 4), (8, 4), (0, 0), (8, 4), (8, 4), (8, 0)] ∧
      fsmRow .lastAck = cells [(9, 4), (9, 4), (9, 4), (9, 4), (0, 0), (9, 4), (9, 4), (9, 0)] ∧
      fsmRow .timeWait = cells [(10, 4), (10, 4), (10, 4), (10, 4), (0, 0), (10, 4), (10, 4), (10, 0)] := by decide

/-! ## Pseudo-commands (R69) -/

theorem test_bload_groups :
    bload [1, 2, 3, 4, 5, 6, 7, 8] = [.bclr, .bpush 6 0x010203040506, .bpush 2 0x0708] := by decide

/-! ## Witnesses: the hypotheses of each obligation are met, every clause at the edge of its range -/

theorem witness_DecodeInvertsEncode :
    (Instr.bpush 6 0xFFFFFFFFFFFF).wellFormed = true ∧ (Instr.bpush 1 0x00).wellFormed = true ∧
      (Instr.brd 0xFFFF).wellFormed = true := by decide

theorem witness_EncodeInvertsDecode : decode 0x0BFF00000000FFFF = .instr (.bwr 0xFFFF 0xFF) := by decide

/-- A word a row selects, and words none selects: a bad count, a reserved bit. -/
theorem witness_DecoderFollowsOpcodeMap :
    (∃ r ∈ opcodeMap, r.selects 0x09010000000000FF = true) ∧
      (∀ r ∈ opcodeMap, r.selects 0x0907000000000000 = false) ∧
      (∀ r ∈ opcodeMap, r.selects 0x0A00000000010000 = false) := by decide

theorem witness_IllegalWordWritesOnlyStatus :
    (∀ op ∈ [0x00, 0x01, 0x02, 0x03, 0x04, 0x08, 0x09, 0x0A, 0x0B, 0x10, 0x20, 0x21, 0x30, 0x31, 0x32, 0x40, 0x41, 0x42,
             0x50, 0x51, 0x52, 0x53, 0x54, 0x55, 0x56, 0x57], (opField 0x5800000000000000).toNat ≠ op) ∧
      ∀ i, decode 0x0907000000000000 ≠ .instr i := by
  refine ⟨by decide, fun i h => ?_⟩
  have hd : decode 0x0907000000000000 = .illegal .badPush := by decide
  rw [hd] at h; cases h

theorem witness_StepRunsDecodedCommand :
    ({ holding [7] with port := [0x0A00000000000000, 0] } : State).port = 0x0A00000000000000 :: [0] ∧
      decode 0x0A00000000000000 = .instr (.brd 0) ∧ (holding [7]).port = [] := by decide

theorem witness_RunExecutesProgramInOrder :
    ∀ i ∈ [Instr.bpush 1 0xFF, .csumBuf, .rd 0x03], i.wellFormed = true := by decide

/-- A full buffer, and a step that tries to push one byte more. -/
theorem witness_StepKeepsBufferWithinCapacity :
    ((roomFor 0).present 0x09010000000000FF).Inv ∧ ∃ t, step ((roomFor 0).present 0x09010000000000FF) = .next t := by
  have := roomFor_length 0 (by norm_num)
  refine ⟨(Memory.wf_iff _).mpr (by change (roomFor 0).buf.length ≤ _; omega),
    (roomFor 0).withStatus .errBufOverflow, ?_⟩
  exact (issue_of_instr (roomFor 0) (show decode 0x09010000000000FF = .instr (.bpush 1 0xFF) by decide)).trans
    (requireRoom_of_lt _ (by change _ < (roomFor 0).buf.length + 1; omega))

theorem witness_StepKeepsReachableTcpStates :
    State.FsmInv (({ State.reset with tcpState := .finWait1, tcpPrevState := .established } : State).present
        0x5300000000000000) ∧
      ∃ t, step (({ State.reset with tcpState := .finWait1, tcpPrevState := .established } : State).present
        0x5300000000000000) = .next t := ⟨by decide, _, rfl⟩

theorem witness_RegisterValuesFitTheirWidths : (roomFor 0).Inv := by
  have := roomFor_length 0 (by norm_num)
  exact (Memory.wf_iff _).mpr (by omega)

theorem witness_RegisterWriteReadsBack :
    RegName.tcpDataOffset.access = .rw ∧ RegName.ethDst.access = .rw ∧ RegName.tcpFlags ≠ .tcpDataOffset := by decide

/-- The words of the twenty format-N commands. -/
def formatNWords : List CommandWord :=
  [0x0000000000000000, 0x0100000000000000, 0x0800000000000000, 0x1000000000000000, 0x2000000000000000, 0x2100000000000000,
    0x3000000000000000, 0x3100000000000000, 0x3200000000000000, 0x4000000000000000, 0x4100000000000000, 0x4200000000000000]
    ++ fsmWords

/-- `OnlyWord`, in every command statement of format N: other words with the OP byte, a bit of IMM or of A set. -/
theorem witness_OnlyWord :
    formatNWords.all (fun word =>
      (opField (word + 1) == opField word && word + 1 != word) &&
        (opField (word + 0x00FF000000000000) == opField word && word + 0x00FF000000000000 != word)) = true := by rfl

/-- The first and the last read-write index, the last read-only one, a missing one. -/
theorem witness_WrWritesOneRegister :
    (regOfIndex 0x10 = some .ethDst ∧ RegName.ethDst.access = .rw) ∧
      (regOfIndex 0x38 = some .tcpUrgent ∧ RegName.tcpUrgent.access = .rw) ∧
      (∀ r, regOfIndex 0x05 = some r → r.access = .ro) ∧ (∀ r, regOfIndex 0x39 = some r → r.access = .ro) ∧
      opField 0x02FFFFFFFFFFFFFF = 0x02 := by
  refine ⟨by decide, by decide, ?_, ?_, by decide⟩
  · intro r h; rw [show regOfIndex 0x05 = some .tcpPrevState from by decide] at h; cases h; rfl
  · intro r h; rw [show regOfIndex 0x39 = none from by decide] at h; cases h

theorem witness_RdReadsAnyRegister :
    regOfIndex 0x00 = some .status ∧ regOfIndex 0x38 = some .tcpUrgent ∧ regOfIndex 0x06 = none ∧ regOfIndex 0xFF = none ∧
      (opField 0x0300000000000000 = 0x03 ∧ immField 0x0300000000000000 = 0) ∧
      (opField 0x0300000000000001 = 0x03 ∧ immField 0x0300000000000001 ≠ 0) := by decide

/-- Source and destination the same register; a read-only destination; a missing source; IMM at 2^8 - 1 and at 2^8. -/
theorem witness_MovCopiesOneRegister :
    (regOfIndex 0x25 = some .ip4Ttl ∧ RegName.ip4Ttl.access = .rw ∧ regOfIndex 0x00 = some .status) ∧
      (∀ d, regOfIndex 0x02 = some d → d.access = .ro) ∧ regOfIndex 0x99 = none ∧
      (opField 0x04250000000000FF = 0x04 ∧ (immField 0x04250000000000FF).toNat < 2 ^ 8) ∧
      (opField 0x0425000000000100 = 0x04 ∧ 2 ^ 8 ≤ (immField 0x0425000000000100).toNat) := by
  refine ⟨by decide, ?_, by decide, by decide, by decide⟩
  intro d h; rw [show regOfIndex 0x02 = some .len from by decide] at h; cases h; rfl

/-- One byte and six, into exactly as much room, and into one byte less; a legal and an illegal word. -/
theorem witness_BpushAppendsBytes :
    (1 ≤ (1 : BitVec 8).toNat ∧ (1 : BitVec 8).toNat ≤ 6 ∧ (0xFF : Datum).toNat < 2 ^ (8 * (1 : BitVec 8).toNat) ∧
      (roomFor 1).buf.length + (1 : BitVec 8).toNat ≤ Config.bufMax) ∧
    (1 ≤ (6 : BitVec 8).toNat ∧ (6 : BitVec 8).toNat ≤ 6 ∧ (0xFFFFFFFFFFFF : Datum).toNat < 2 ^ (8 * (6 : BitVec 8).toNat) ∧
      Config.bufMax < (roomFor 5).buf.length + (6 : BitVec 8).toNat) ∧
    (opField 0x09010000000000FF = 0x09 ∧ opField 0x0901000000000100 = 0x09 ∧
      ¬ (immField 0x0901000000000100).toNat < 2 ^ (8 * (aField 0x0901000000000100).toNat)) := by
  have h1 := roomFor_length 1 (by norm_num)
  have h5 := roomFor_length 5 (by norm_num)
  refine ⟨⟨by decide, by decide, by decide, ?_⟩, ⟨by decide, by decide, by decide, ?_⟩, by decide⟩
  · change _ + 1 ≤ _; omega
  · change _ < _ + 6; omega

/-- The last valid index and the first invalid one; the words at the edge. -/
theorem witness_BrdReadsOneByte :
    (holding [5, 6]).buf[(1 : BitVec 16).toNat]? = some 6 ∧ (holding [5, 6]).buf.length ≤ (2 : BitVec 16).toNat ∧
      (opField 0x0A0000000000FFFF = 0x0A ∧ aField 0x0A0000000000FFFF = 0 ∧
        (immField 0x0A0000000000FFFF).toNat < 2 ^ 16) ∧
      (opField 0x0A00000000010000 = 0x0A ∧
        ¬ (aField 0x0A00000000010000 = 0 ∧ (immField 0x0A00000000010000).toNat < 2 ^ 16)) := by decide

theorem witness_BwrOverwritesOneByte :
    (1 : BitVec 16).toNat < (holding [5, 6]).buf.length ∧ (holding [5, 6]).buf.length ≤ (2 : BitVec 16).toNat ∧
      (opField 0x0BA300000000FFFF = 0x0B ∧ (immField 0x0BA300000000FFFF).toNat < 2 ^ 16) ∧
      (opField 0x0BA3000000010000 = 0x0B ∧ 2 ^ 16 ≤ (immField 0x0BA3000000010000).toNat) := by decide

theorem witness_OddInputPadsWithZeroByte : ([0x12, 0x34, 0x56] : List Byte).length % 2 = 1 := by decide

/-- The longest input, of the greatest sum. -/
theorem witness_AccumulatorHoldsExactSum : (List.replicate 131072 (0xFF : Byte)).length ≤ 131072 := by
  rw [List.length_replicate]

theorem witness_ChecksumIsOnesComplementOfSum :
    (wordSum [0, 0, 0] = 0 ∧ ([0, 0, 0] : List Byte).length ≤ 131072) ∧
      (wordSum [0xFF, 0xFF] ≠ 0 ∧ ([0xFF, 0xFF] : List Byte).length ≤ 131072) := by decide

/-- The first and the last field of a sequence (K13, K14). -/
theorem witness_EmbeddedChecksumVerifiesToZero :
    (0 % 2 = 0 ∧ 0 + 1 < ([0, 0, 0xF2] : List Byte).length ∧ ([0, 0, 0xF2] : List Byte)[0]? = some 0#8 ∧
      ([0, 0, 0xF2] : List Byte)[0 + 1]? = some 0#8) ∧
    (2 % 2 = 0 ∧ 2 + 1 < ([0xF2, 3, 0, 0] : List Byte).length ∧ ([0xF2, 3, 0, 0] : List Byte)[2]? = some 0#8 ∧
      ([0xF2, 3, 0, 0] : List Byte)[2 + 1]? = some 0#8) := by decide

/-- Exactly room for the header, and one byte less. -/
theorem witness_EthEncPrependsHeader :
    (roomFor 14).buf.length + 14 ≤ Config.bufMax ∧ Config.bufMax < (roomFor 13).buf.length + 14 := by
  have h1 := roomFor_length 14 (by norm_num)
  have h2 := roomFor_length 13 (by norm_num)
  omega

theorem witness_EthDecStripsHeader :
    (holding [0, 1, 2, 3, 4, 5, 6, 7, 8, 9, 10, 11, 12, 13]).buf = [0, 1, 2, 3, 4, 5, 6, 7, 8, 9, 10, 11, 12, 13] ++ [] ∧
      (holding [0, 1, 2, 3, 4, 5, 6, 7, 8, 9, 10, 11, 12]).buf.length < 14 := by decide

/-- Room for the frame, and a frame that fills the buffer. -/
theorem witness_EthRoundTrip :
    (roomFor 14).buf.length + 14 ≤ Config.bufMax ∧ (roomFor 0).Inv ∧ 14 ≤ (roomFor 0).buf.length := by
  have h1 := roomFor_length 14 (by norm_num)
  have h2 := roomFor_length 0 (by norm_num)
  have := Config.bufMax_ge
  exact ⟨by omega, witness_RegisterValuesFitTheirWidths, by omega⟩

/-- `hdr` and `tl` as the statement asks, exactly room for the header, and one byte less. -/
theorem witness_Ip4EncPrependsHeader :
    (∃ tl : BitVec 16, tl = BitVec.ofNat 16 (20 + (roomFor 20).buf.length)) ∧
      (∃ hdr : BitVec 16 → List Byte, ∀ ck : BitVec 16, hdr ck =
        [0x45#8, 0, 0, 0, 0, 0, 0, 0, 0, 0, ck.extractLsb' 8 8, ck.extractLsb' 0 8, 0, 0, 0, 0, 0, 0, 0, 0]) ∧
      (roomFor 20).buf.length + 20 ≤ Config.bufMax ∧ Config.bufMax < (roomFor 19).buf.length + 20 := by
  have h1 := roomFor_length 20 (by norm_num)
  have h2 := roomFor_length 19 (by norm_num)
  exact ⟨⟨_, rfl⟩, ⟨_, fun _ => rfl⟩, by omega, by omega⟩

theorem witness_Ip4DecStripsHeader :
    (holding (packetI6.take 20)).buf = [0x46, 0x10, 0x00, 0x1A, 0x00, 0x01, 0x20, 0x00, 0x80, 0x11, 0xAA, 0xBB, 0x01, 0x02,
        0x03, 0x04, 0x05, 0x06, 0x07, 0x08] ++ [] ∧
      (holding (packetI6.take 19)).buf.length < 20 := by decide

/-- `Ip4RoundTrip`, `Ip4EncodedHeaderVerifies`, `TcpRoundTrip` and `TcpSealedSegmentVerifies`: exactly room. -/
theorem witness_room_for_20 : (roomFor 20).buf.length + 20 ≤ Config.bufMax := by
  have := roomFor_length 20 (by norm_num)
  omega

theorem witness_Ip4ReceiveCheckAgrees :
    (holding (ip4HdrBytes ip4RegsI2 (ip4Checksum ip4RegsI2) ++ [])).buf =
      ip4HdrBytes ip4RegsI2 (ip4Checksum ip4RegsI2) ++ [] := rfl

/-- `TcpEncPrependsHeader` and `TcpCsumSumsPseudoHeaderAndSegment`: exactly room, and one byte less. -/
theorem witness_TcpEncPrependsHeader :
    (∃ tl : BitVec 16, tl = BitVec.ofNat 16 (20 + (roomFor 20).buf.length)) ∧
      (roomFor 20).buf.length + 20 ≤ Config.bufMax ∧ Config.bufMax < (roomFor 19).buf.length + 20 := by
  have h2 := roomFor_length 19 (by norm_num)
  exact ⟨⟨_, rfl⟩, witness_room_for_20, by omega⟩

theorem witness_TcpDecStripsHeader :
    (holding ((segmentT4 0xF0).take 20)).buf = [0x04, 0x00, 0x00, 0x17, 0x01, 0x02, 0x03, 0x04, 0x05, 0x06, 0x07, 0x08, 0xF0,
        0xFF, 0x20, 0x00, 0x12, 0x34, 0x00, 0x09] ++ [] ∧
      (holding ((segmentT4 0xF0).take 19)).buf.length < 20 := by decide

/-- A correct segment that fills the buffer. -/
theorem witness_TcpReceiveCheckAgrees :
    ∃ (s : State) (payload : List Byte), s.Inv ∧ s.buf.length = Config.bufMax ∧
      s.buf = tcpHdrBytes stateT1.tcp (tcpChecksum stateT1.tcp payload s.ip4.src s.ip4.dst) ++ payload := by
  have h := Config.bufMax_ge
  let payload : List Byte := List.replicate (Config.bufMax - 20) 0
  have hl : (tcpHdrBytes stateT1.tcp (tcpChecksum stateT1.tcp payload 0 0) ++ payload).length = Config.bufMax := by
    simp only [payload, List.length_append, tcpHdrBytes_length, List.length_replicate]; omega
  exact ⟨holding (tcpHdrBytes stateT1.tcp (tcpChecksum stateT1.tcp payload 0 0) ++ payload), payload,
    (Memory.wf_iff _).mpr hl.le, hl, rfl⟩

/-- A pair with no row: receive-FIN in CLOSED (S15). -/
theorem witness_DeltaFollowsTheTable :
    Event.rcvFin ≠ .rcvRst ∧ Event.rcvFin ≠ .sndAck ∧
      ∀ q' : TcpState, (TcpState.closed, Event.rcvFin, q') ∉
        [(TcpState.listen, Event.rcvSyn, TcpState.synReceived), (.synSent, .rcvSynack, .established),
          (.synReceived, .rcvAck, .established), (.established, .rcvFin, .closeWait), (.established, .sndFin, .finWait1),
          (.finWait1, .rcvFin, .closing), (.finWait2, .rcvFin, .timeWait), (.closeWait, .sndFin, .lastAck),
          (.closed, .sndSyn, .synSent)] := by
  refine ⟨by decide, by decide, fun q' => ?_⟩
  cases q' <;> decide

/-- The four statements about FSM commands: every state is a state of the machine, so each clause's premise is met. -/
theorem witness_FsmCommands (q : TcpState) : ({ State.reset with tcpState := q } : State).tcpState = q := rfl

theorem witness_RegistersWrittenOnlyByListedCommands :
    (∃ t, exec (.rd 0x04) State.reset = .next t) ∧ (Instr.rd 0x04).writesReg .tcpState = false ∧
      (∃ t, exec .ip4Dec (holding packetI6) = .next t) ∧ Instr.ip4Dec.writesReg .tcpSeq = false :=
  ⟨⟨_, rfl⟩, by decide, ⟨_, rfl⟩, by decide⟩

/-- A command that stores nothing, a failing one, and the successful encodes and decodes; the addresses around a store. -/
theorem witness_BufferBytesOutsideTheStoreKept :
    Instr.csumBuf.keepsBuffer = true ∧
      (after 0x2100000000000000 (holding [1])).map (·.status) = some .errFrameTooSmall ∧
      ¬ ((holding [1]).len ≤ 0 ∧ 0 < (holding [1]).len + (2 : BitVec 8).toNat) ∧
      ¬ ((holding [1]).len ≤ 3 ∧ 3 < (holding [1]).len + (2 : BitVec 8).toNat) ∧ 1 ≠ (0 : BitVec 16).toNat ∧
      ([0x2000000000000000, 0x3000000000000000, 0x4000000000000000, 0x2100000000000000, 0x3100000000000000,
        0x4100000000000000].map fun w => (after w (holding (segmentT4 0x50))).map (·.status)) =
        List.replicate 6 (some .ok) := ⟨by rfl, by rfl, by decide, by decide, by decide, by rfl⟩

theorem witness_ErrorOutcomesChangeOnlyStatus :
    (after 0x0907000000000001 (holding [1])).map (·.status.isErr) = some true ∧
      (after 0x5300000000000000 (holding [1])).map (·.status) = some .unexpectedEvent := by decide

theorem witness_OutcomesAreThoseListed :
    (∃ t, issue 0x0A00000000000000 State.reset = .next t) ∧ decode 0x0A00000000000000 = .instr (.brd 0) ∧
      decode 0x0A01000000000000 = .illegal .nonzeroA := ⟨⟨_, rfl⟩, by decide, by decide⟩

theorem witness_OnlyStatusReadersSeeStatus :
    (Instr.rd 0x01).readsStatus = false ∧ (Instr.mov 0x25 0x02).readsStatus = false := by decide

theorem witness_FailedCommandLeavesNoTrace :
    (∃ t, issue 0x0600000000000000 (holding [1]) = .next t ∧ t.status.isErr = true) ∧
      (∃ t, issue 0x5300000000000000 (holding [1]) = .next t ∧ t.status = .unexpectedEvent) ∧
      Instr.csumBuf.readsStatus = false := ⟨⟨_, rfl, rfl⟩, ⟨_, rfl, rfl⟩, by decide⟩

/-- No byte, and as many as the buffer holds. -/
theorem witness_BloadLoadsTheBytes :
    ([] : List Byte).length ≤ Config.bufMax ∧ (List.replicate Config.bufMax (0xA5 : Byte)).length ≤ Config.bufMax := by
  simp

end Sys2Proof.Tests
end

section
/-! PROOFS. Steps (spec/00_scope.md R7): what a step does by what is in the command port, and that every command completes
(spec/60_exceptions.md R171, R173). -/

namespace Sys2Proof.Machine

/-! ## A step by the command port -/

theorem step_of_port_nil {s : State} (h : s.port = []) : step s = .next s := by rw [step, takeCommand_nil h]

/-- A step with words in the port is the spec's step of the first word, in the state with that word taken. -/
theorem step_of_port_cons {s : State} {w : CommandWord} {rest : List CommandWord} (h : s.port = w :: rest) :
    step s = issue w (s.withPort rest) := by rw [step, takeCommand_cons h]; rfl

/-! ## Every command completes

A check (R42, R55, R112) ends the command itself or goes on, so a command completes when what follows its check does. -/

theorem requireRoom_completes (cap n : Nat) (s : State) {go : Result} (h : ∃ t, go = .next t) :
    ∃ t, requireRoom cap n s go = .next t := by
  by_cases hc : cap < s.buf.length + n
  · exact ⟨_, requireRoom_of_lt go hc⟩
  · rwa [requireRoom_of_le go (Nat.le_of_not_lt hc)]

theorem requireLen_completes (n : Nat) (c : StatusCode) (s : State) {go : Result} (h : ∃ t, go = .next t) :
    ∃ t, requireLen n c s go = .next t := by
  by_cases hc : s.buf.length < n
  · exact ⟨_, requireLen_of_lt go hc⟩
  · rwa [requireLen_of_le go (Nat.le_of_not_lt hc)]

theorem requireIndex_completes (i : Nat) (s : State) {go : Byte → Result} (h : ∀ b, ∃ t, go b = .next t) :
    ∃ t, requireIndex i s go = .next t := by
  cases hr : Memory.read s.buf i with
  | none => exact ⟨_, requireIndex_of_le go (List.getElem?_eq_none_iff.mp hr)⟩
  | some b => rw [requireIndex_of_read go hr]; exact h b

theorem execWr_completes (d : BitVec 8) (v : Datum) (s : State) : ∃ t, execWr d v s = .next t := by
  unfold execWr
  split
  · exact ⟨_, raise_eq _ _⟩
  · exact ⟨_, complete_eq _⟩

theorem execRd_completes (r : BitVec 8) (s : State) : ∃ t, execRd r s = .next t := by
  unfold execRd
  split
  · exact ⟨_, raise_eq _ _⟩
  · exact ⟨_, complete_eq _⟩

theorem execMov_completes (d r : BitVec 8) (s : State) : ∃ t, execMov d r s = .next t := by
  unfold execMov
  split
  · exact ⟨_, complete_eq _⟩
  · exact ⟨_, raise_eq _ _⟩

theorem execBpush_completes (n : BitVec 8) (v : Datum) (s : State) : ∃ t, execBpush n v s = .next t := by
  unfold execBpush
  split
  · exact requireRoom_completes _ _ _ ⟨_, complete_eq _⟩
  · exact ⟨_, illegalCommand_eq _⟩

/-- "Nothing in this core is fatal" (R173): every command ends with a next state. -/
theorem exec_completes (i : Instr) (s : State) : ∃ t, exec i s = .next t :=
  match i with
  | .wr d v => execWr_completes d v s
  | .rd r => execRd_completes r s
  | .mov d r => execMov_completes d r s
  | .bpush n v => execBpush_completes n v s
  | .brd _ | .bwr _ _ => requireIndex_completes _ _ fun _ => ⟨_, complete_eq _⟩
  | .ethEnc | .ip4Enc | .tcpEnc | .tcpCsum => requireRoom_completes _ _ _ ⟨_, complete_eq _⟩
  | .ethDec | .ip4Dec | .tcpDec => requireLen_completes _ _ _ ⟨_, complete_eq _⟩
  | .nop | .rst | .bclr | .csumBuf | .ip4Csum => ⟨_, complete_eq _⟩
  | .fsmRcvSyn | .fsmRcvSynack | .fsmRcvAck | .fsmRcvFin | .fsmRcvRst | .fsmSndSyn | .fsmSndFin | .fsmSndAck =>
    ⟨_, deliver_eq _ _⟩

/-- Every word completes, legal or not (R65, R173). -/
theorem issue_completes (w : CommandWord) (s : State) : ∃ t, issue w s = .next t := by
  cases h : decode w with
  | instr i => rw [issue_of_instr s h]; exact exec_completes i s
  | illegal e => exact ⟨_, issue_of_illegal s h⟩

theorem step_completes (s : State) : StepSafe s := by
  cases h : s.port with
  | nil => exact ⟨s, step_of_port_nil h⟩
  | cons w rest => rw [StepSafe, step_of_port_cons h]; exact issue_completes w _

/-- The Response shows STATUS and DOUT as a read of the registers would (R7, R171). -/
theorem response_reads_status_and_dout (s : State) :
    s.response.outcome.setWidth 48 = s.readReg .status ∧ s.response.data = s.readReg .dout := ⟨rfl, rfl⟩

/-- Settles O6: a step of a non-empty port is the issue of its first word, and that is the command the word selects. -/
theorem stepRunsDecodedCommand : Obligations.StepRunsDecodedCommand := by
  refine ⟨fun s w rest i hport hdec => ?_, fun s w i hdec => issue_of_instr s hdec, fun s => step_of_port_nil⟩
  exact (step_of_port_cons hport).trans (issue_of_instr _ hdec)

/-- Settles O7, from the completion of every command and of every illegal word. -/
theorem everyCommandCompletes : Obligations.EveryCommandCompletes := by
  refine ⟨fun w s => ?_, exec_completes, step_completes⟩
  obtain ⟨t, ht⟩ := issue_completes w s
  exact ⟨t, ht, response_reads_status_and_dout t⟩

end Sys2Proof.Machine
end

section
/-! PROOFS. Registers (spec/10_state.md R11, R26, spec/20_memory.md R41): widths, indices, and that a write of one register
reads back and is seen in no other. -/

namespace Sys2Proof.Machine

/-! ## Values fit their widths (R26) -/

theorem width_le (r : RegName) : r.width ≤ 48 := by cases r <;> decide

/-- A register reads as a value of its width, zero-extended. -/
theorem readReg_toNat_lt (s : State) (r : RegName) : (s.readReg r).toNat < 2 ^ r.width := by
  cases r
  case dout | ethDst | ethSrc => exact BitVec.isLt _
  all_goals exact setWidth48_toNat_lt _ (by decide)

theorem tcpState_code_toNat_le (q : TcpState) : (q.code.setWidth 48).toNat ≤ 10 := by cases q <;> decide

theorem statusCode_toNat_mem (c : StatusCode) :
    (c.code.setWidth 48).toNat ∈ [0x00, 0x01, 0x02, 0x03, 0x04, 0x10, 0x11, 0x12, 0x13] := by cases c <;> decide

/-- LEN counts the valid bytes, because BUF_MAX is below 2^16 (R4, R16). -/
theorem readReg_len_toNat {s : State} (h : s.Inv) : (s.readReg .len).toNat = s.buf.length := by
  have hle : s.buf.length ≤ 65535 := ((Memory.wf_iff _).mp h).trans Config.bufMax_le
  rw [State.readReg, BitVec.toNat_setWidth_of_le (by decide), BitVec.toNat_ofNat, Nat.mod_eq_of_lt (by omega)]

/-- Settles O13, register by register; the capacity is needed for LEN alone. -/
theorem registerValuesFitTheirWidths : Obligations.RegisterValuesFitTheirWidths := fun s =>
  ⟨readReg_toNat_lt s, tcpState_code_toNat_le _, tcpState_code_toNat_le _, statusCode_toNat_mem _, readReg_len_toNat⟩

/-! ## Indices (R11) -/

theorem regOfIndex_eq_some_iff (i : BitVec 8) (r : RegName) : regOfIndex i = some r ↔ r.index = i :=
  ⟨index_of_regOfIndex, fun h => h ▸ regOfIndex_index r⟩

theorem regOfIndex_eq_none_iff (i : BitVec 8) :
    regOfIndex i = none ↔ ∀ r ∈ RegName.all, r.index.toNat ≠ i.toNat := by
  simp [regOfIndex, BitVec.toNat_inj]

/-- Settles O14: the indices of the 28 registers fill four ranges, and the other indices are the gaps between them. -/
theorem registerIndicesNameOneRegister : Obligations.RegisterIndicesNameOneRegister := by
  refine ⟨regOfIndex_eq_some_iff, fun i => (regOfIndex_eq_none_iff i).trans ?_⟩
  simp only [RegName.all, List.forall_mem_cons, List.not_mem_nil, false_imp_iff, implies_true, and_true, RegName.index,
    BitVec.reduceToNat]
  omega

/-! ## Reading after a write (R41) -/

/-- A write keeps the low bits of the datum, as many as the register is wide, and no other register sees it. -/
theorem readReg_writeReg (s : State) (v : Datum) {r : RegName} (h : r.access = .rw) (r' : RegName) :
    (s.writeReg r v).readReg r' = if r' = r then (v.setWidth r.width).setWidth 48 else s.readReg r' := by
  cases r
  case status | dout | len | csumResult | tcpState | tcpPrevState => cases h
  all_goals cases r' <;> rfl

theorem readReg_writeReg_same (s : State) (v : Datum) {r : RegName} (h : r.access = .rw) :
    (s.writeReg r v).readReg r = (v.setWidth r.width).setWidth 48 := by rw [readReg_writeReg s v h, if_pos rfl]

theorem readReg_writeReg_other (s : State) (v : Datum) {r r' : RegName} (h : r.access = .rw) (hne : r' ≠ r) :
    (s.writeReg r v).readReg r' = s.readReg r' := by rw [readReg_writeReg s v h, if_neg hne]

/-- Settles O15: both clauses are the one equation for reading after a write. -/
theorem registerWriteReadsBack : Obligations.RegisterWriteReadsBack := by
  refine fun s r v h => ⟨?_, fun r' => readReg_writeReg_other s v h⟩
  rw [readReg_writeReg_same s v h, BitVec.toNat_setWidth_of_le (width_le r), BitVec.toNat_setWidth]

/-! ## Reading after a codec command and after BWR -/

theorem readReg_withEth (s : State) (x : EthRegs) (r : RegName) (h : r ∉ [RegName.ethDst, .ethSrc, .ethType]) :
    (s.withEth x).readReg r = s.readReg r := by
  cases r
  case ethDst | ethSrc | ethType => exact absurd (by decide) h
  all_goals rfl

theorem readReg_withIp4 (s : State) (x : Ip4Regs) (r : RegName)
    (h : r ∉ [RegName.ip4VerIhl, .ip4DscpEcn, .ip4TotalLength, .ip4Id, .ip4FlagsFrag, .ip4Ttl, .ip4Protocol,
      .ip4HeaderChecksum, .ip4Src, .ip4Dst]) : (s.withIp4 x).readReg r = s.readReg r := by
  cases r
  case ip4VerIhl | ip4DscpEcn | ip4TotalLength | ip4Id | ip4FlagsFrag | ip4Ttl | ip4Protocol | ip4HeaderChecksum |
    ip4Src | ip4Dst => exact absurd (by decide) h
  all_goals rfl

theorem readReg_withTcp (s : State) (x : TcpRegs) (r : RegName)
    (h : r ∉ [RegName.tcpSrcPort, .tcpDstPort, .tcpSeq, .tcpAck, .tcpDataOffset, .tcpFlags, .tcpWindow, .tcpChecksum,
      .tcpUrgent]) : (s.withTcp x).readReg r = s.readReg r := by
  cases r
  case tcpSrcPort | tcpDstPort | tcpSeq | tcpAck | tcpDataOffset | tcpFlags | tcpWindow | tcpChecksum | tcpUrgent =>
    exact absurd (by decide) h
  all_goals rfl

/-- IP4.ENC writes IP4_TOTAL_LENGTH only (R122). -/
theorem readReg_withIp4_regsForEnc (s : State) {r : RegName} (h : r ≠ .ip4TotalLength) :
    (s.withIp4 (ip4RegsForEnc s)).readReg r = s.readReg r := by
  cases r
  case ip4TotalLength => exact absurd rfl h
  all_goals rfl

/-- Overwriting a byte leaves LEN, and with it every register (R88). -/
theorem readReg_withBuf_of_length {m : Memory} {s : State} (h : m.length = s.buf.length) (r : RegName) :
    (s.withBuf m).readReg r = s.readReg r := by
  cases r
  case len => rw [State.readReg, State.withBuf_buf, h]; rfl
  all_goals rfl

end Sys2Proof.Machine
end

section
/-! PROOFS. What a command does: one relation with a case per command for its work, and one for the errors. Frames and
invariants (spec/10_state.md R11, R26) are case analyses on it. -/

namespace Sys2Proof.Machine

/-- `Ends s i t`: command `i` run in state `s` leaves state `t`. The case `fail` is one for all commands and does not say
which error is whose (R172: STATUS alone is written); the others are the work of each command, with the checks it has
passed. -/
inductive Ends (s : State) : Instr → State → Prop where
  | fail (i : Instr) {c : StatusCode} (hc : c.isErr = true) : Ends s i (s.withStatus c)
  | nop : Ends s .nop (s.withStatus .ok)
  | rst : Ends s .rst ((State.reset.withPort s.port).withStatus .ok)
  | wr {d : BitVec 8} (v : Datum) {r : RegName} (hd : destOfIndex d = some r) :
      Ends s (.wr d v) ((s.writeReg r v).withStatus .ok)
  | rd {x : BitVec 8} {r : RegName} (hx : regOfIndex x = some r) :
      Ends s (.rd x) ((s.withDout (s.readReg r)).withStatus .ok)
  | mov {d x : BitVec 8} {q r : RegName} (hd : destOfIndex d = some q) (hx : regOfIndex x = some r) :
      Ends s (.mov d x) ((s.writeReg q (s.readReg r)).withStatus .ok)
  | bclr : Ends s .bclr ((s.withBuf []).withStatus .ok)
  | bpush {n : BitVec 8} {v : Datum} (hp : pushOperandsOk n v = true) (hroom : s.buf.length + n.toNat ≤ Config.bufMax) :
      Ends s (.bpush n v) ((s.withBuf (Memory.push s.buf (be n.toNat v))).withStatus .ok)
  | brd {x : BitVec 16} {b : Byte} (hx : Memory.read s.buf x.toNat = some b) :
      Ends s (.brd x) ((s.withDout (b.setWidth 48)).withStatus .ok)
  | bwr {x : BitVec 16} (b : Byte) (hx : x.toNat < s.buf.length) :
      Ends s (.bwr x b) ((s.withBuf (Memory.write s.buf x.toNat b)).withStatus .ok)
  | csumBuf : Ends s .csumBuf ((s.withCsumResult (checksum s.buf)).withStatus .ok)
  | ethEnc (hroom : s.buf.length + 14 ≤ Config.bufMax) :
      Ends s .ethEnc ((s.withBuf (Memory.prepend s.buf (ethHdrBytes s.eth))).withStatus .ok)
  | ethDec (hlen : 14 ≤ s.buf.length) :
      Ends s .ethDec (((s.withEth (ethRegsOf s.buf)).withBuf (Memory.strip s.buf 14)).withStatus .ok)
  | ip4Enc (hroom : s.buf.length + 20 ≤ Config.bufMax) :
      Ends s .ip4Enc (((s.withIp4 (ip4RegsForEnc s)).withBuf (Memory.prepend s.buf
        (ip4HdrBytes (ip4RegsForEnc s) (ip4Checksum (ip4RegsForEnc s))))).withStatus .ok)
  | ip4Dec (hlen : 20 ≤ s.buf.length) :
      Ends s .ip4Dec (((s.withIp4 (ip4RegsOf s.buf)).withBuf (Memory.strip s.buf 20)).withStatus .ok)
  | ip4Csum : Ends s .ip4Csum ((s.withCsumResult (ip4Checksum s.ip4)).withStatus .ok)
  | tcpEnc (hroom : s.buf.length + 20 ≤ Config.bufMax) :
      Ends s .tcpEnc ((s.withBuf (Memory.prepend s.buf (tcpHdrBytes s.tcp s.tcp.checksum))).withStatus .ok)
  | tcpDec (hlen : 20 ≤ s.buf.length) :
      Ends s .tcpDec (((s.withTcp (tcpRegsOf s.buf)).withBuf
        (Memory.strip s.buf (4 * (dataOffsetOf s.buf).toNat))).withStatus .ok)
  | tcpCsum (hroom : s.buf.length + 20 ≤ Config.bufMax) :
      Ends s .tcpCsum ((s.withCsumResult (tcpChecksum s.tcp s.buf s.ip4.src s.ip4.dst)).withStatus .ok)
  | fsm (e : Event) :
      Ends s (eventCommand e) ((s.withFsm (delta s.tcpState e).1 s.tcpState).withStatus (delta s.tcpState e).2)

/-! ## Every command ends so

A fact of the end of a checked command follows from its two ends, the failed check and the work behind it. -/

section
variable {P : State → Prop} {s t u : State}

theorem requireRoom_complete_elim {cap n : Nat} (h : requireRoom cap n s (complete u) = .next t)
    (hfail : P (s.withStatus .errBufOverflow)) (hok : s.buf.length + n ≤ cap → P (u.withStatus .ok)) : P t := by
  rcases requireRoom_cases h with ⟨hroom, hu⟩ | ⟨-, rfl⟩
  · cases hu; exact hok hroom
  · exact hfail

theorem requireLen_complete_elim {n : Nat} {c : StatusCode} (h : requireLen n c s (complete u) = .next t)
    (hfail : P (s.withStatus c)) (hok : n ≤ s.buf.length → P (u.withStatus .ok)) : P t := by
  rcases requireLen_cases h with ⟨hlen, hu⟩ | ⟨-, rfl⟩
  · cases hu; exact hok hlen
  · exact hfail

theorem requireIndex_complete_elim {k : Nat} {f : Byte → State}
    (h : requireIndex k s (fun b => complete (f b)) = .next t) (hfail : P (s.withStatus .errBadIndex))
    (hok : ∀ b, Memory.read s.buf k = some b → P ((f b).withStatus .ok)) : P t := by
  rcases requireIndex_cases h with ⟨b, hb, hu⟩ | ⟨-, rfl⟩
  · cases hu; exact hok b hb
  · exact hfail

end

theorem execWr_ends {d : BitVec 8} {v : Datum} {s t : State} (h : execWr d v s = .next t) : Ends s (.wr d v) t := by
  unfold execWr at h
  split at h
  · cases h; exact .fail _ rfl
  next hd => cases h; exact .wr v hd

theorem execRd_ends {x : BitVec 8} {s t : State} (h : execRd x s = .next t) : Ends s (.rd x) t := by
  unfold execRd at h
  split at h
  · cases h; exact .fail _ rfl
  next hx => cases h; exact .rd hx

theorem execMov_ends {d x : BitVec 8} {s t : State} (h : execMov d x s = .next t) : Ends s (.mov d x) t := by
  unfold execMov at h
  split at h
  next hd hx => cases h; exact .mov hd hx
  · cases h; exact .fail _ rfl

theorem execBpush_ends {n : BitVec 8} {v : Datum} {s t : State} (h : execBpush n v s = .next t) :
    Ends s (.bpush n v) t := by
  unfold execBpush at h
  split at h
  next hp => exact requireRoom_complete_elim h (.fail _ rfl) (.bpush hp)
  · cases h; exact .fail _ rfl

/-- Every end of a command is one that `Ends` lists. -/
theorem exec_ends {i : Instr} {s t : State} (h : exec i s = .next t) : Ends s i t := by
  cases i
  case wr => exact execWr_ends h
  case rd => exact execRd_ends h
  case mov => exact execMov_ends h
  case bpush => exact execBpush_ends h
  case brd => exact requireIndex_complete_elim h (.fail _ rfl) fun _ => .brd
  case bwr b =>
    exact requireIndex_complete_elim h (.fail _ rfl) fun _ hx => .bwr b (List.getElem?_eq_some_iff.mp hx).1
  case ethEnc => exact requireRoom_complete_elim h (.fail _ rfl) .ethEnc
  case ip4Enc => exact requireRoom_complete_elim h (.fail _ rfl) .ip4Enc
  case tcpEnc => exact requireRoom_complete_elim h (.fail _ rfl) .tcpEnc
  case tcpCsum => exact requireRoom_complete_elim h (.fail _ rfl) .tcpCsum
  case ethDec => exact requireLen_complete_elim h (.fail _ rfl) .ethDec
  case ip4Dec => exact requireLen_complete_elim h (.fail _ rfl) .ip4Dec
  case tcpDec => exact requireLen_complete_elim h (.fail _ rfl) .tcpDec
  case nop => cases h; exact .nop
  case rst => cases h; exact .rst
  case bclr => cases h; exact .bclr
  case csumBuf => cases h; exact .csumBuf
  case ip4Csum => cases h; exact .ip4Csum
  case fsmRcvSyn => cases h; exact .fsm .rcvSyn
  case fsmRcvSynack => cases h; exact .fsm .rcvSynack
  case fsmRcvAck => cases h; exact .fsm .rcvAck
  case fsmRcvFin => cases h; exact .fsm .rcvFin
  case fsmRcvRst => cases h; exact .fsm .rcvRst
  case fsmSndSyn => cases h; exact .fsm .sndSyn
  case fsmSndFin => cases h; exact .fsm .sndFin
  case fsmSndAck => cases h; exact .fsm .sndAck

end Sys2Proof.Machine
end

section
/-! PROOFS. What reset leaves and what steps keep (spec/10_state.md R11, R25, R26). -/

namespace Sys2Proof.Machine

/-! ## Reset (R25) -/

/-- Settles O9, register by register. -/
theorem resetLeavesSpecValues : Obligations.ResetLeavesSpecValues :=
  ⟨fun r => by cases r <;> rfl, rfl, rfl, rfl, rfl⟩

/-- Settles O10: an empty buffer, and CLOSED is reachable. -/
theorem resetMeetsInvariants : Obligations.ResetMeetsInvariants := ⟨Memory.wf_reset, rfl, rfl⟩

/-! ## The capacity invariant (R26) -/

/-- What every command keeps, and a write of STATUS and of the port besides, every step keeps (R7, R65). -/
theorem step_preserves {P : State → Prop} (hport : ∀ s p, P s → P (s.withPort p))
    (hstatus : ∀ s c, P s → P (s.withStatus c)) (hexec : ∀ i s t, P s → exec i s = .next t → P t) {s t : State}
    (hs : P s) (h : step s = .next t) : P t := by
  cases hp : s.port with
  | nil => rw [step_of_port_nil hp] at h; cases h; exact hs
  | cons w rest =>
    rw [step_of_port_cons hp] at h
    cases hw : decode w with
    | instr i => rw [issue_of_instr _ hw] at h; exact hexec i _ t (hport s rest hs) h
    | illegal e => rw [issue_of_illegal _ hw] at h; cases h; exact hstatus _ _ (hport s rest hs)

/-- Only BPUSH and the encodes lengthen the buffer, and they check for room first (R55, R86). -/
theorem exec_keeps_capacity (i : Instr) (s t : State) (hs : s.Inv) (h : exec i s = .next t) : t.Inv := by
  cases exec_ends h with
  | fail | nop | rd | brd | csumBuf | ip4Csum | tcpCsum | fsm => exact hs
  | wr | mov => rw [State.Inv, State.withStatus_buf, writeReg_buf]; exact hs
  | rst | bclr => exact Memory.wf_nil
  | bwr b => exact Memory.wf_write _ _ b hs
  | bpush hp hroom => exact Memory.wf_push _ _ (by rwa [be_length])
  | ethEnc hroom => exact Memory.wf_prepend _ _ (by rwa [ethHdrBytes_length])
  | ip4Enc hroom => exact Memory.wf_prepend _ _ (by rwa [ip4HdrBytes_length])
  | tcpEnc hroom => exact Memory.wf_prepend _ _ (by rwa [tcpHdrBytes_length])
  | ethDec | ip4Dec | tcpDec => exact Memory.wf_strip _ _ hs

/-- Settles O11: every command keeps the capacity, an illegal word and the port do not touch the buffer. -/
theorem stepKeepsBufferWithinCapacity : Obligations.StepKeepsBufferWithinCapacity := fun _ _ =>
  step_preserves (fun _ _ => id) (fun _ _ => id) exec_keeps_capacity

/-! ## The register frame (R11) -/

theorem writesReg_eventCommand (e : Event) (r : RegName) :
    (eventCommand e).writesReg r = (r == .status || (r == .tcpState || r == .tcpPrevState)) := by cases e <;> rfl

theorem ne_status_of_writesReg {i : Instr} {r : RegName} (h : i.writesReg r = false) : r ≠ .status := by
  rintro rfl; simp [Instr.writesReg] at h

/-- WR and MOV read back nothing new but in their destination (R82, R84). -/
theorem readReg_writeReg_dest (s : State) (v : Datum) {d : BitVec 8} {q r : RegName} (hd : destOfIndex d = some q)
    (h : (destOfIndex d == some r) = false) : (s.writeReg q v).readReg r = s.readReg r :=
  readReg_writeReg_other s v ((destOfIndex_eq_some_iff d q).mp hd).2 (by rintro rfl; simp [hd] at h)

/-- Settles O53, by cases on how the command ends: what the work of a command writes is in its line of R11's table. -/
theorem registersWrittenOnlyByListedCommands : Obligations.RegistersWrittenOnlyByListedCommands := by
  intro i s t r h hw
  have hst := ne_status_of_writesReg hw
  cases exec_ends h <;> rw [readReg_withStatus _ _ _ hst]
  case rst => simp [Instr.writesReg] at hw
  case fsm e =>
    simp only [writesReg_eventCommand, Bool.or_eq_false_iff, beq_eq_false_iff_ne] at hw
    obtain ⟨-, hstate, hprev⟩ := hw
    exact readReg_withFsm _ _ _ r hstate hprev
  all_goals
    simp only [Instr.writesReg, Bool.or_eq_false_iff, beq_eq_false_iff_ne, List.contains_eq_mem,
      decide_eq_false_iff_not, List.mem_cons, not_or] at hw
  case wr v q hd => exact readReg_writeReg_dest s v hd (by simpa using hw.2)
  case mov hd _ => exact readReg_writeReg_dest s _ hd (by simpa using hw.2)
  case rd | brd => simp [readReg_withDout, hw]
  case csumBuf | ip4Csum | tcpCsum => simp [readReg_withCsumResult, hw]
  case bwr => exact readReg_withBuf_of_length (Memory.length_write _ _ _) r
  case bclr | bpush | ethEnc | tcpEnc => simp [readReg_withBuf, hw]
  case ip4Enc => simp [readReg_withBuf, readReg_withIp4_regsForEnc, hw]
  case ethDec => simp [readReg_withBuf, readReg_withEth, hw]
  case ip4Dec => simp [readReg_withBuf, readReg_withIp4, hw]
  case tcpDec => simp [readReg_withBuf, readReg_withTcp, hw]

end Sys2Proof.Machine
end

section
/-! PROOFS. STATUS is seen by its readers alone (spec/10_state.md R24): any other command runs the same whatever STATUS
holds. -/

namespace Sys2Proof.Machine

theorem readReg_withStatus_of_index {x : BitVec 8} {r : RegName} (s : State) (c : StatusCode)
    (hx : regOfIndex x = some r) (h : (x == RegName.status.index) = false) :
    (s.withStatus c).readReg r = s.readReg r :=
  readReg_withStatus s c r (by rintro rfl; simp [← index_of_regOfIndex hx] at h)

theorem execWr_withStatus (d : BitVec 8) (v : Datum) (s : State) (c : StatusCode) :
    execWr d v (s.withStatus c) = execWr d v s := by
  cases hd : destOfIndex d <;> simp [execWr, hd, writeReg_withStatus]

theorem execRd_withStatus {x : BitVec 8} (s : State) (c : StatusCode) (h : (x == RegName.status.index) = false) :
    execRd x (s.withStatus c) = execRd x s := by
  cases hx : regOfIndex x with
  | none => simp [execRd, hx]
  | some r => simp only [execRd, hx, readReg_withStatus_of_index s c hx h]; rfl

theorem execMov_withStatus {x : BitVec 8} (d : BitVec 8) (s : State) (c : StatusCode)
    (h : (x == RegName.status.index) = false) : execMov d x (s.withStatus c) = execMov d x s := by
  cases hd : destOfIndex d with
  | none => simp [execMov, hd]
  | some q =>
    cases hx : regOfIndex x with
    | none => simp [execMov, hd, hx]
    | some r => simp [execMov, hd, hx, readReg_withStatus_of_index s c hx h, writeReg_withStatus]

theorem execBpush_withStatus (n : BitVec 8) (v : Datum) (s : State) (c : StatusCode) :
    execBpush n v (s.withStatus c) = execBpush n v s := by
  rw [execBpush, execBpush]
  split
  · exact requireRoom_congr rfl rfl rfl
  · rfl

/-- A command that does not read STATUS overwrites it and uses nothing of it. -/
theorem exec_withStatus (s : State) (c : StatusCode) : (i : Instr) → i.readsStatus = false →
    exec i (s.withStatus c) = exec i s
  | .wr d v, _ => execWr_withStatus d v s c
  | .rd _, h => execRd_withStatus s c h
  | .mov d _, h => execMov_withStatus d s c h
  | .bpush n v, _ => execBpush_withStatus n v s c
  | .ethEnc, _ | .ip4Enc, _ | .tcpEnc, _ | .tcpCsum, _ => requireRoom_congr rfl rfl rfl
  | .ethDec, _ | .ip4Dec, _ | .tcpDec, _ => requireLen_congr rfl rfl rfl
  | .brd _, _ | .bwr _ _, _ => rfl
  | .nop, _ | .rst, _ | .bclr, _ | .csumBuf, _ | .ip4Csum, _ => rfl
  | .fsmRcvSyn, _ | .fsmRcvSynack, _ | .fsmRcvAck, _ | .fsmRcvFin, _ => rfl
  | .fsmRcvRst, _ | .fsmSndSyn, _ | .fsmSndFin, _ | .fsmSndAck, _ => rfl

/-- Settles O57, command by command. -/
theorem onlyStatusReadersSeeStatus : Obligations.OnlyStatusReadersSeeStatus := fun i s c =>
  exec_withStatus s c i

end Sys2Proof.Machine
end

section
/-! PROOFS. A program in the command port runs as its commands one after another (spec/20_memory.md R50): the word of a
well-formed command decodes to it (spec/30_encoding.md R61, R63), and no command touches the words behind its own (log
1). -/

namespace Sys2Proof

/-! ## Decoding the word of a command

The commands with operands, one equation each; the words of the others are constants. -/

theorem decode_encode_wr (d : BitVec 8) (v : Datum) : decode (encode (.wr d v)) = .instr (.wr d v) := by
  simp [encode, decode]

theorem decode_encode_rd (r : BitVec 8) : decode (encode (.rd r)) = .instr (.rd r) := by
  simp [encode, decode, formatR_eq_instr]

theorem decode_encode_mov (d r : BitVec 8) : decode (encode (.mov d r)) = .instr (.mov d r) := by
  have hlt := setWidth48_toNat_lt r (by decide)
  have hr := setWidth_setWidth48 r (by decide)
  simp only [encode, decode, opField_mkWord, formatM_eq_instr, immField_mkWord, aField_mkWord]
  exact ⟨hlt, by rw [hr]⟩

theorem decode_encode_bpush {n : BitVec 8} {v : Datum} (h : pushOperandsOk n v = true) :
    decode (encode (.bpush n v)) = .instr (.bpush n v) := by
  simp [encode, decode, formatP_eq_instr, h]

theorem decode_encode_brd (x : BitVec 16) : decode (encode (.brd x)) = .instr (.brd x) := by
  have hlt := setWidth48_toNat_lt x (by decide)
  have hx := setWidth_setWidth48 x (by decide)
  simp only [encode, decode, opField_mkWord, formatX_eq_instr, immField_mkWord, aField_mkWord]
  exact ⟨trivial, hlt, by rw [hx]⟩

theorem decode_encode_bwr (x : BitVec 16) (b : Byte) : decode (encode (.bwr x b)) = .instr (.bwr x b) := by
  have hlt := setWidth48_toNat_lt x (by decide)
  have hx := setWidth_setWidth48 x (by decide)
  simp only [encode, decode, opField_mkWord, formatY_eq_instr, immField_mkWord, aField_mkWord]
  exact ⟨hlt, by rw [hx]⟩

/-- The word of a command that has one selects it (R63). -/
theorem decode_encode : (i : Instr) → i.wellFormed = true → decode (encode i) = .instr i
  | .wr d v, _ => decode_encode_wr d v
  | .rd r, _ => decode_encode_rd r
  | .mov d r, _ => decode_encode_mov d r
  | .bpush _ _, h => decode_encode_bpush h
  | .brd x, _ => decode_encode_brd x
  | .bwr x b, _ => decode_encode_bwr x b
  | .nop, _ | .rst, _ | .bclr, _ | .csumBuf, _ | .ethEnc, _ | .ethDec, _ => rfl
  | .ip4Enc, _ | .ip4Dec, _ | .ip4Csum, _ | .tcpEnc, _ | .tcpDec, _ | .tcpCsum, _ => rfl
  | .fsmRcvSyn, _ | .fsmRcvSynack, _ | .fsmRcvAck, _ | .fsmRcvFin, _ => rfl
  | .fsmRcvRst, _ | .fsmSndSyn, _ | .fsmSndFin, _ | .fsmSndAck, _ => rfl

namespace Machine

/-! ## The port -/

/-- No command writes the host's port, RST included (log 1). -/
theorem exec_port {i : Instr} {s t : State} (h : exec i s = .next t) : t.port = s.port := by
  cases exec_ends h with
  | wr | mov => exact writeReg_port _ _ _
  | _ => rfl

/-- A step of the word of a command is that command, run with the word taken. -/
theorem step_withPort_encode {i : Instr} (hi : i.wellFormed = true) (s : State) (p : List CommandWord) :
    step (s.withPort (encode i :: p)) = exec i (s.withPort p) := by
  rw [step_of_port_cons (s.withPort_port _), issue_of_instr _ (decode_encode i hi), State.withPort_withPort]

/-! ## Runs of a program -/

theorem execSeq_cons {i : Instr} {is : List Instr} {s t : State} (h : exec i s = .next t) :
    execSeq (i :: is) s = execSeq is t := by rw [execSeq, h]

/-- The commands of a program, run one after another in a state whose port holds only the words behind the program, end
as the run of the program does. -/
theorem run_program_eq_execSeq (prog : List Instr) (hwf : ∀ i ∈ prog, i.wellFormed = true) (s : State) :
    ∃ t, core.run prog.length (s.withPort (prog.map encode ++ s.port)) = .next t ∧ execSeq prog s = .next t ∧
      t.port = s.port := by
  induction prog generalizing s with
  | nil => exact ⟨s, rfl, rfl, rfl⟩
  | cons i is ih =>
    obtain ⟨hi, his⟩ := List.forall_mem_cons.mp hwf
    obtain ⟨u, hu⟩ := exec_completes i s
    obtain ⟨t, hrun, hseq, hport⟩ := ih his u
    rw [exec_port hu] at hrun hport
    have hstep : core.step (s.withPort (encode i :: (is.map encode ++ s.port))) =
        .next (u.withPort (is.map encode ++ s.port)) :=
      (step_withPort_encode hi s _).trans (exec_withPort i s u _ hu)
    exact ⟨t, (run_succ core _ _ _ hstep).trans hrun, (execSeq_cons hu).trans hseq, hport⟩

/-- Settles O8, by induction on the program. -/
theorem runExecutesProgramInOrder : Obligations.RunExecutesProgramInOrder := fun prog rest s hwf =>
  run_program_eq_execSeq prog hwf (s.withPort rest)

end Machine

end Sys2Proof
end

section
/-! PROOFS. The buffer frame (spec/20_memory.md R42, R47, R55, R56): which bytes each command leaves, and where a codec
moves them. -/

namespace Sys2Proof.Machine

/-! ## Commands that leave the whole buffer -/

theorem exec_buf_of_keepsBuffer {i : Instr} {s t : State} (hk : i.keepsBuffer = true) (h : exec i s = .next t) :
    t.buf = s.buf := by
  cases exec_ends h with
  | wr | mov => exact writeReg_buf _ _ _
  | fail | nop | rd | brd | csumBuf | ip4Csum | tcpCsum | fsm => rfl
  | rst | bclr | bpush | bwr | ethEnc | ethDec | ip4Enc | ip4Dec | tcpEnc | tcpDec => cases hk

/-- Only a failing command and an FSM command end with another outcome than OK (R170, R172). -/
theorem exec_buf_of_status_ne_ok {i : Instr} {s t : State} (h : exec i s = .next t) (hne : t.status ≠ .ok) :
    t.buf = s.buf := by
  cases exec_ends h with
  | fail | fsm => rfl
  | _ => exact absurd rfl hne

/-! ## Stores -/

theorem Memory.read_push_outside (m : Memory) (bs : List Byte) (a : Nat)
    (h : ¬ (m.length ≤ a ∧ a < m.length + bs.length)) : Memory.read (Memory.push m bs) a = Memory.read m a := by
  by_cases ha : a < m.length
  · exact Memory.read_push_below m bs a ha
  · have hend : (Memory.push m bs).length ≤ a := by rw [Memory.push, List.length_append]; omega
    rw [Memory.read, Memory.read, List.getElem?_eq_none hend, List.getElem?_eq_none (Nat.le_of_not_lt ha)]

/-- BPUSH stores at the n indices from LEN on or, where it fails, nowhere (R86). -/
theorem read_bpush_outside {n : BitVec 8} {v : Datum} {s t : State} (h : exec (.bpush n v) s = .next t) (a : Nat)
    (ha : ¬ (s.len ≤ a ∧ a < s.len + n.toNat)) : Memory.read t.buf a = Memory.read s.buf a := by
  rw [exec, execBpush] at h
  split at h
  · exact requireRoom_complete_elim (P := fun t => Memory.read t.buf a = Memory.read s.buf a) h rfl
      fun _ => Memory.read_push_outside _ _ _ (by rwa [be_length])
  · cases h; rfl

/-- BWR stores at its index or, where it fails, nowhere (R88). -/
theorem read_bwr_other {x : BitVec 16} {b : Byte} {s t : State} (h : exec (.bwr x b) s = .next t) (a : Nat)
    (ha : a ≠ x.toNat) : Memory.read t.buf a = Memory.read s.buf a :=
  requireIndex_complete_elim (P := fun t => Memory.read t.buf a = Memory.read s.buf a) h rfl
    fun _ _ => Memory.read_write_other _ _ _ _ ha

/-! ## Codecs

A command that ends with OK has passed its check, so its end is the end of its work. -/

theorem eq_of_requireRoom_ok {cap n : Nat} {s t u : State} (h : requireRoom cap n s (complete u) = .next t)
    (hok : t.status = .ok) : t = u.withStatus .ok := by
  rcases requireRoom_cases h with ⟨-, hu⟩ | ⟨-, rfl⟩
  · cases hu; rfl
  · cases hok

theorem eq_of_requireLen_ok {n : Nat} {c : StatusCode} {s t u : State} (hc : c.isErr = true)
    (h : requireLen n c s (complete u) = .next t) (hok : t.status = .ok) : t = u.withStatus .ok := by
  rcases requireLen_cases h with ⟨-, hu⟩ | ⟨-, rfl⟩
  · cases hu; rfl
  · cases hok; cases hc

/-- The old content is read behind a header of known length (R55). -/
theorem Memory.read_prepend_of_length (m : Memory) {hdr : List Byte} {n : Nat} (hn : hdr.length = n) (a : Nat) :
    Memory.read (Memory.prepend m hdr) (n + a) = Memory.read m a := by subst hn; exact Memory.read_prepend m hdr a

theorem read_ethEnc {s t : State} (h : exec .ethEnc s = .next t) (hok : t.status = .ok) (a : Nat) :
    Memory.read t.buf (14 + a) = Memory.read s.buf a := by
  rw [eq_of_requireRoom_ok h hok]
  exact Memory.read_prepend_of_length _ (ethHdrBytes_length _) a

theorem read_ip4Enc {s t : State} (h : exec .ip4Enc s = .next t) (hok : t.status = .ok) (a : Nat) :
    Memory.read t.buf (20 + a) = Memory.read s.buf a := by
  rw [eq_of_requireRoom_ok h hok]
  exact Memory.read_prepend_of_length _ (ip4HdrBytes_length _ _) a

theorem read_tcpEnc {s t : State} (h : exec .tcpEnc s = .next t) (hok : t.status = .ok) (a : Nat) :
    Memory.read t.buf (20 + a) = Memory.read s.buf a := by
  rw [eq_of_requireRoom_ok h hok]
  exact Memory.read_prepend_of_length _ (tcpHdrBytes_length _ _) a

theorem read_ethDec {s t : State} (h : exec .ethDec s = .next t) (hok : t.status = .ok) (a : Nat) :
    Memory.read t.buf a = Memory.read s.buf (14 + a) := by
  rw [eq_of_requireLen_ok rfl h hok]
  exact Memory.read_strip _ 14 a

theorem read_ip4Dec {s t : State} (h : exec .ip4Dec s = .next t) (hok : t.status = .ok) (a : Nat) :
    Memory.read t.buf a = Memory.read s.buf (20 + a) := by
  rw [eq_of_requireLen_ok rfl h hok]
  exact Memory.read_strip _ 20 a

/-- The header TCP.DEC strips is as long as the data offset it stores says (R139). -/
theorem read_tcpDec {s t : State} (h : exec .tcpDec s = .next t) (hok : t.status = .ok) (a : Nat) :
    Memory.read t.buf a = Memory.read s.buf (4 * t.tcp.dataOffset.toNat + a) := by
  rw [eq_of_requireLen_ok rfl h hok]
  exact Memory.read_strip _ (4 * (dataOffsetOf s.buf).toNat) a

/-! ## Commands that empty the buffer -/

theorem exec_buf_of_empties {i : Instr} {s t : State} (hi : i = .rst ∨ i = .bclr) (h : exec i s = .next t) :
    t.buf = [] := by
  rcases hi with rfl | rfl <;> cases h <;> rfl

/-- Settles O54, clause by clause: the frame of a command that stores is the frame of its buffer operation. -/
theorem bufferBytesOutsideTheStoreKept : Obligations.BufferBytesOutsideTheStoreKept := by
  refine ⟨fun _ _ _ => exec_port, fun i s t hk h a => ?_, fun i s t h hne a => ?_, fun _ _ _ _ => read_bpush_outside,
    fun _ _ _ _ => read_bwr_other, fun _ _ => read_ethEnc, fun i s t hi h hok => ?_, fun _ _ => read_ethDec,
    fun _ _ => read_ip4Dec, fun _ _ => read_tcpDec, fun i s t hi h a => ?_⟩
  · rw [exec_buf_of_keepsBuffer hk h]
  · rw [exec_buf_of_status_ne_ok h hne]
  · rcases hi with rfl | rfl
    · exact read_ip4Enc h hok
    · exact read_tcpEnc h hok
  · rw [exec_buf_of_empties hi h]; rfl

end Sys2Proof.Machine
end

section
/-! PROOFS. Command words (spec/30_encoding.md): decoding and encoding are inverse to each other, the decoder is the
opcode map of R63 read as masks and patterns, and a word that selects no command writes STATUS alone. -/

namespace Sys2Proof

/-! ## The command of a word has that word

One lemma per format of R61: a word with the command's OP byte that passes the format's checks is the command's word. -/

section
variable {w : CommandWord} {i j : Instr} {op : BitVec 8}

theorem encode_of_formatN (hop : opField w = op) (hj : encode j = mkWord op 0 0) (hwf : j.wellFormed = true)
    (h : formatN w j = .instr i) : encode i = w ∧ i.wellFormed = true := by
  obtain ⟨ha, himm, rfl⟩ := (formatN_eq_instr w j i).mp h
  exact ⟨hj.trans ((mkWord_eq_iff ..).mpr ⟨hop, ha, himm⟩), hwf⟩

theorem encode_of_formatR (hop : opField w = 0x03#8) (h : formatR w = .instr i) :
    encode i = w ∧ i.wellFormed = true := by
  obtain ⟨himm, rfl⟩ := (formatR_eq_instr w i).mp h
  exact ⟨(mkWord_eq_iff ..).mpr ⟨hop, rfl, himm⟩, rfl⟩

theorem encode_of_formatM (hop : opField w = 0x04#8) (h : formatM w = .instr i) :
    encode i = w ∧ i.wellFormed = true := by
  obtain ⟨himm, rfl⟩ := (formatM_eq_instr w i).mp h
  exact ⟨(mkWord_eq_iff ..).mpr ⟨hop, rfl, (setWidth_setWidth_of_lt _ himm).symm⟩, rfl⟩

theorem encode_of_formatP (hop : opField w = 0x09#8) (h : formatP w = .instr i) :
    encode i = w ∧ i.wellFormed = true := by
  obtain ⟨hpush, rfl⟩ := (formatP_eq_instr w i).mp h
  exact ⟨(mkWord_eq_iff ..).mpr ⟨hop, rfl, rfl⟩, hpush⟩

theorem encode_of_formatX (hop : opField w = 0x0A#8) (h : formatX w = .instr i) :
    encode i = w ∧ i.wellFormed = true := by
  obtain ⟨ha, himm, rfl⟩ := (formatX_eq_instr w i).mp h
  exact ⟨(mkWord_eq_iff ..).mpr ⟨hop, ha, (setWidth_setWidth_of_lt _ himm).symm⟩, rfl⟩

theorem encode_of_formatY (hop : opField w = 0x0B#8) (h : formatY w = .instr i) :
    encode i = w ∧ i.wellFormed = true := by
  obtain ⟨himm, rfl⟩ := (formatY_eq_instr w i).mp h
  exact ⟨(mkWord_eq_iff ..).mpr ⟨hop, rfl, (setWidth_setWidth_of_lt _ himm).symm⟩, rfl⟩

end

/-- A word that selects a command is the command's word, and the command is well formed (R61, R64). -/
theorem encode_of_decode {w : CommandWord} {i : Instr} (h : decode w = .instr i) :
    encode i = w ∧ i.wellFormed = true := by
  unfold decode at h
  split at h
  -- the OP bytes of formats W, R, M, P, X and Y, then the unassigned ones; all others are of format N
  case h_3 hop => cases h; exact ⟨(mkWord_eq_iff ..).mpr ⟨hop, rfl, rfl⟩, rfl⟩
  case h_4 hop => exact encode_of_formatR hop h
  case h_5 hop => exact encode_of_formatM hop h
  case h_7 hop => exact encode_of_formatP hop h
  case h_8 hop => exact encode_of_formatX hop h
  case h_9 hop => exact encode_of_formatY hop h
  case h_27 => cases h
  all_goals next hop => exact encode_of_formatN hop rfl rfl h

/-- Settles O2: the round trip of each command's word, proved for the runs of a program. -/
theorem decodeInvertsEncode : Obligations.DecodeInvertsEncode := decode_encode

/-- Settles O3, by the OP byte of the word and then the format it selects. -/
theorem encodeInvertsDecode : Obligations.EncodeInvertsDecode := fun _ _ => encode_of_decode

/-! ## Words that select no command -/

/-- The OP byte of a command's word is one of the 26 assigned ones (R63). -/
theorem opField_encode_mem (i : Instr) :
    (opField (encode i)).toNat ∈ [0x00, 0x01, 0x02, 0x03, 0x04, 0x08, 0x09, 0x0A, 0x0B, 0x10, 0x20, 0x21, 0x30, 0x31,
      0x32, 0x40, 0x41, 0x42, 0x50, 0x51, 0x52, 0x53, 0x54, 0x55, 0x56, 0x57] := by
  cases i <;> rw [encode, opField_mkWord] <;> decide

/-- Settles O5: a word that selected a command would have an assigned OP byte; a step of a word that selects none is the
illegal one. -/
theorem illegalWordWritesOnlyStatus : Obligations.IllegalWordWritesOnlyStatus := by
  refine ⟨fun w hop => (decode_illegal_iff w).mpr fun i hi => ?_, fun w s hnone => ?_⟩
  · obtain ⟨rfl, -⟩ := encode_of_decode hi
    exact hop _ (opField_encode_mem i) rfl
  · obtain ⟨e, he⟩ := (decode_illegal_iff w).mpr hnone
    exact ⟨Machine.issue_of_illegal s he, rfl⟩

/-! ## The opcode map as the decoder -/

/-- Every command's word selects the row of its mnemonic (R63). -/
theorem rowSelects : (i : Instr) → Laws.RowSelects.Statement i
  | .nop => Laws.RowSelects.nop
  | .rst => Laws.RowSelects.rst
  | .wr d v => Laws.RowSelects.wr d v
  | .rd r => Laws.RowSelects.rd r
  | .mov d r => Laws.RowSelects.mov d r
  | .bclr => Laws.RowSelects.bclr
  | .bpush n v => Laws.RowSelects.bpush n v
  | .brd x => Laws.RowSelects.brd x
  | .bwr x b => Laws.RowSelects.bwr x b
  | .csumBuf => Laws.RowSelects.csumBuf
  | .ethEnc => Laws.RowSelects.ethEnc
  | .ethDec => Laws.RowSelects.ethDec
  | .ip4Enc => Laws.RowSelects.ip4Enc
  | .ip4Dec => Laws.RowSelects.ip4Dec
  | .ip4Csum => Laws.RowSelects.ip4Csum
  | .tcpEnc => Laws.RowSelects.tcpEnc
  | .tcpDec => Laws.RowSelects.tcpDec
  | .tcpCsum => Laws.RowSelects.tcpCsum
  | .fsmRcvSyn => Laws.RowSelects.fsmRcvSyn
  | .fsmRcvSynack => Laws.RowSelects.fsmRcvSynack
  | .fsmRcvAck => Laws.RowSelects.fsmRcvAck
  | .fsmRcvFin => Laws.RowSelects.fsmRcvFin
  | .fsmRcvRst => Laws.RowSelects.fsmRcvRst
  | .fsmSndSyn => Laws.RowSelects.fsmSndSyn
  | .fsmSndFin => Laws.RowSelects.fsmSndFin
  | .fsmSndAck => Laws.RowSelects.fsmSndAck

/-- The mnemonic of the command a word selects. -/
def Decoded.mnemonic : Decoded → Option String
  | .instr i => some i.mnemonic
  | .illegal _ => none

theorem Decoded.mnemonic_eq_some_iff (d : Decoded) (m : String) :
    d.mnemonic = some m ↔ ∃ i, d = .instr i ∧ i.mnemonic = m := by cases d <;> simp [Decoded.mnemonic]

/-- A row of format N is selected by its pattern alone (R61, R63). -/
theorem eq_pattern_of_selects_formatN {r : OpcodeRow} (hr : r ∈ opcodeMapFormatN) {w : CommandWord}
    (h : r.selects w = true) : w = r.pattern := by
  have hmask : ∀ r ∈ opcodeMapFormatN, r.mask = BitVec.allOnes 64 := by decide
  rw [OpcodeRow.selects, hmask r hr, BitVec.and_allOnes, Bool.and_eq_true, beq_iff_eq] at h
  exact h.1

theorem decode_pattern_formatN :
    ∀ r ∈ opcodeMapFormatN, (decode r.pattern).mnemonic = some r.mnemonic := by decide

/-- A row that checks the whole OP byte selects a word by its A and IMM under the row's mask as well (R60, R63). -/
theorem fields_of_selects {r : OpcodeRow} {w : CommandWord} (h : r.selects w = true) {op b : BitVec 8} {m : Datum}
    (hm : r.mask = mkWord (BitVec.allOnes 8) b m) (hp : r.pattern = mkWord op 0 0) :
    opField w = op ∧ aField w &&& b = 0 ∧ immField w &&& m = 0 ∧
      (r.push = true → pushOperandsOk (aField w) (immField w) = true) := by
  rw [OpcodeRow.selects, Bool.and_eq_true, beq_iff_eq, hm, hp, ← mkWord_fields w, mkWord_and, eq_comm, mkWord_eq_iff,
    BitVec.and_allOnes] at h
  simpa [and_assoc, imp_iff_not_or] using h

/-- A word with the fields of a command's word selects the command. -/
theorem decode_of_fields {i : Instr} (hwf : i.wellFormed = true) {op a : BitVec 8} {imm : Datum}
    (hi : encode i = mkWord op a imm) {w : CommandWord} (hop : opField w = op) (ha : aField w = a)
    (himm : immField w = imm) : decode w = .instr i := by
  rw [← (mkWord_eq_iff ..).mpr ⟨hop, ha, himm⟩, ← hi, decode_encode i hwf]

/-- A word that selects a row with operands is the word of a command with the row's mnemonic, its operands being the
fields the row's mask leaves free (R61, R63). -/
theorem decode_of_selects_operands {r : OpcodeRow} (hr : r ∈ opcodeMapOperands) {w : CommandWord}
    (h : r.selects w = true) : ∃ i, decode w = .instr i ∧ i.mnemonic = r.mnemonic := by
  simp only [opcodeMapOperands, List.mem_cons, List.not_mem_nil, or_false] at hr
  rcases hr with rfl | rfl | rfl | rfl | rfl | rfl
  · obtain ⟨hop, -⟩ := fields_of_selects h (op := 0x02#8) (b := 0) (m := 0) (by decide) (by decide)
    exact ⟨.wr (aField w) (immField w), decode_of_fields rfl rfl hop rfl rfl, rfl⟩
  · obtain ⟨hop, -, himm, -⟩ :=
      fields_of_selects h (op := 0x03#8) (b := 0) (m := BitVec.allOnes 48) (by decide) (by decide)
    rw [BitVec.and_allOnes] at himm
    exact ⟨.rd (aField w), decode_of_fields rfl rfl hop rfl himm, rfl⟩
  · obtain ⟨hop, -, himm, -⟩ :=
      fields_of_selects h (op := 0x04#8) (b := 0) (m := 0xFFFFFFFFFF00#48) (by decide) (by decide)
    have hrs := setWidth_setWidth_of_lt _ ((and_mask40_eq_zero_iff _).mp himm)
    exact ⟨.mov (aField w) ((immField w).setWidth 8), decode_of_fields rfl rfl hop rfl hrs.symm, rfl⟩
  · obtain ⟨hop, -, -, hpush⟩ := fields_of_selects h (op := 0x09#8) (b := 0) (m := 0) (by decide) (by decide)
    have hwf : (Instr.bpush (aField w) (immField w)).wellFormed = true := hpush rfl
    exact ⟨_, decode_of_fields hwf rfl hop rfl rfl, rfl⟩
  · obtain ⟨hop, ha, himm, -⟩ :=
      fields_of_selects h (op := 0x0A#8) (b := BitVec.allOnes 8) (m := 0xFFFFFFFF0000#48) (by decide) (by decide)
    rw [BitVec.and_allOnes] at ha
    have hidx := setWidth_setWidth_of_lt _ ((and_mask32_eq_zero_iff _).mp himm)
    exact ⟨.brd ((immField w).setWidth 16), decode_of_fields rfl rfl hop ha hidx.symm, rfl⟩
  · obtain ⟨hop, -, himm, -⟩ :=
      fields_of_selects h (op := 0x0B#8) (b := 0) (m := 0xFFFFFFFF0000#48) (by decide) (by decide)
    have hidx := setWidth_setWidth_of_lt _ ((and_mask32_eq_zero_iff _).mp himm)
    exact ⟨.bwr ((immField w).setWidth 16) (aField w), decode_of_fields rfl rfl hop rfl hidx.symm, rfl⟩

theorem decode_of_selects_formatN {r : OpcodeRow} (hr : r ∈ opcodeMapFormatN) {w : CommandWord}
    (h : r.selects w = true) : ∃ i, decode w = .instr i ∧ i.mnemonic = r.mnemonic := by
  obtain rfl := eq_pattern_of_selects_formatN hr h
  exact (Decoded.mnemonic_eq_some_iff _ _).mp (decode_pattern_formatN r hr)

/-- A word that selects a row decodes to that row's command (R63). -/
theorem decode_of_selects {r : OpcodeRow} (hr : r ∈ opcodeMap) {w : CommandWord} (h : r.selects w = true) :
    ∃ i, decode w = .instr i ∧ i.mnemonic = r.mnemonic :=
  (List.mem_append.mp hr).elim (decode_of_selects_formatN · h) (decode_of_selects_operands · h)

theorem mnemonic_injOn_opcodeMap : ∀ r₁ ∈ opcodeMap, ∀ r₂ ∈ opcodeMap, r₁.mnemonic = r₂.mnemonic → r₁ = r₂ := by
  have hnodup : (opcodeMap.map OpcodeRow.mnemonic).Nodup := by decide
  exact fun r₁ h₁ r₂ h₂ => List.inj_on_of_nodup_map hnodup h₁ h₂

/-- Settles O4: a word's rows bear the mnemonic of the one command it decodes to, and the word of a command selects a
row. -/
theorem decoderFollowsOpcodeMap : Obligations.DecoderFollowsOpcodeMap := by
  refine ⟨rfl, fun w => ⟨fun r₁ hr₁ r₂ hr₂ h₁ h₂ => ?_, fun r hr h => decode_of_selects hr h, fun hnone => ?_⟩⟩
  · obtain ⟨i, hi, hm₁⟩ := decode_of_selects hr₁ h₁
    obtain ⟨j, hj, hm₂⟩ := decode_of_selects hr₂ h₂
    cases hi.symm.trans hj
    exact mnemonic_injOn_opcodeMap r₁ hr₁ r₂ hr₂ (hm₁.symm.trans hm₂)
  · refine (decode_illegal_iff w).mpr fun i hi => ?_
    obtain ⟨rfl, hwf⟩ := encode_of_decode hi
    obtain ⟨r, hr, -, hsel⟩ := rowSelects i hwf
    rw [hnone r hr] at hsel
    cases hsel

/-! ## Words written out from the spec -/

/-- Settles O1, by evaluating the decoder on each word. -/
theorem decodeReadsSpecWords : Obligations.DecodeReadsSpecWords := by
  unfold Obligations.DecodeReadsSpecWords
  decide

end Sys2Proof
end

section
/-! PROOFS. TCP.SEAL (spec/30_encoding.md R69, spec/70_reset_and_hazards.md R196): its three commands run one after
another, and the segment it encodes sums with its pseudo-header to a checksum of zero (spec/41_checksum.md R105). -/

namespace Sys2Proof.Machine

/-! ## The checksum of a sealed segment -/

/-- Segment and pseudo-header with the TCP checksum in its field have checksum zero (R105, R137). -/
theorem checksum_sealedSegment (r : TcpRegs) (payload : List Byte) (src dst : BitVec 32)
    (h : payload.length + 32 ≤ 131072) :
    checksum (tcpPseudoHeader src dst payload.length ++
      (tcpHdrBytes r (tcpChecksum r payload src dst) ++ payload)) = 0x0000#16 := by
  have hsum (ck : BitVec 16) : wordSum (tcpPseudoHeader src dst payload.length ++ (tcpHdrBytes r ck ++ payload)) =
      wordSum (tcpPseudoHeader src dst payload.length ++ tcpHdrBytes r 0 ++ payload) + ck.toNat := by
    rw [List.append_assoc, wordSum_append _ _ (by simp), wordSum_append _ _ (by simp), wordSum_append _ _ (by simp),
      wordSum_append _ _ (by simp), wordSum_tcpHdr r ck]
    omega
  rw [checksum_eq_zero_iff _ (by simp; omega), hsum]
  exact checksum_complements _ (by simp; omega)

/-! ## The three commands -/

theorem exec_tcpCsum_of_room {s : State} (h : s.buf.length + 20 ≤ Config.bufMax) :
    exec .tcpCsum s =
      .next ((s.withCsumResult (tcpChecksum s.tcp s.buf s.ip4.src s.ip4.dst)).withStatus .ok) :=
  requireRoom_of_le _ h

theorem exec_tcpEnc_of_room {s : State} (h : s.buf.length + 20 ≤ Config.bufMax) :
    exec .tcpEnc s = .next ((s.withBuf (Memory.prepend s.buf (tcpHdrBytes s.tcp s.tcp.checksum))).withStatus .ok) :=
  requireRoom_of_le _ h

/-- `MOV TCP_CHECKSUM, CSUM_RESULT` stores the whole result, both registers being 16 bits wide. -/
theorem exec_mov_tcpChecksum_csumResult (s : State) :
    exec (.mov RegName.tcpChecksum.index RegName.csumResult.index) s =
      .next ((s.withTcp { s.tcp with checksum := s.csumResult }).withStatus .ok) := by
  have hd : destOfIndex RegName.tcpChecksum.index = some .tcpChecksum := rfl
  have hw : (s.csumResult.setWidth 48).setWidth 16 = s.csumResult := setWidth_setWidth48 _ (by decide)
  simp only [exec, execMov, hd, regOfIndex_index, complete_eq, State.writeReg, State.readReg, hw]
  rfl

/-- TCP.SEAL with room: the computed checksum stands in CSUM_RESULT and TCP_CHECKSUM, and the header is encoded with it
(R69). -/
theorem execSeq_tcpSeal {s : State} (h : s.buf.length + 20 ≤ Config.bufMax) {ck : BitVec 16}
    (hck : ck = tcpChecksum s.tcp s.buf s.ip4.src s.ip4.dst) :
    execSeq tcpSeal s =
      .next ((((s.withCsumResult ck).withTcp { s.tcp with checksum := ck }).withBuf
        (Memory.prepend s.buf (tcpHdrBytes s.tcp ck))).withStatus .ok) := by
  subst hck
  exact (execSeq_cons (exec_tcpCsum_of_room h)).trans
    ((execSeq_cons (exec_mov_tcpChecksum_csumResult _)).trans (execSeq_cons (exec_tcpEnc_of_room (by exact h))))

/-- Settles O45, from the run of the three commands; the capacity keeps the segment within the checksum's reach. -/
theorem tcpSealedSegmentVerifies : Obligations.TcpSealedSegmentVerifies := fun s hroom =>
  have := Config.bufMax_le
  ⟨_, execSeq_tcpSeal hroom rfl, rfl, rfl, rfl, rfl, checksum_sealedSegment _ _ _ _ (by omega)⟩

end Sys2Proof.Machine
end

section
/-! PROOFS. BLOAD (spec/30_encoding.md R69): BCLR, then one BPUSH for each group of up to six bytes. -/

namespace Sys2Proof.Machine

/-! ## One group -/

theorem pushGroup_count {g : List Byte} (h : g.length ≤ 6) : (BitVec.ofNat 8 g.length).toNat = g.length := by
  rw [BitVec.toNat_ofNat, Nat.mod_eq_of_lt (by omega)]

theorem pushGroup_wellFormed {g : List Byte} (hpos : 1 ≤ g.length) (h : g.length ≤ 6) :
    (pushGroup g).wellFormed = true := by
  rw [pushGroup, Instr.wellFormed, pushOperandsOk_iff, pushGroup_count h]
  exact ⟨hpos, h, fromBe_toNat_lt g (by omega)⟩

/-- The BPUSH of a group that fits appends its bytes (R86). -/
theorem exec_pushGroup {g : List Byte} (hpos : 1 ≤ g.length) (h : g.length ≤ 6) {s : State}
    (hroom : s.buf.length + g.length ≤ Config.bufMax) :
    exec (pushGroup g) s = .next ((s.withBuf (s.buf ++ g)).withStatus .ok) := by
  have hwf : pushOperandsOk (BitVec.ofNat 8 g.length) (fromBe 48 g) = true := pushGroup_wellFormed hpos h
  rw [pushGroup, exec, execBpush, if_pos hwf, pushGroup_count h, requireRoom_of_le _ hroom, be_fromBe g (by omega),
    complete_eq, Memory.push]

/-! ## All groups -/

/-- Any sequence but the empty one begins with a group. -/
theorem pushGroups_eq_cons {bs : List Byte} (h : bs ≠ []) :
    pushGroups bs = pushGroup (bs.take 6) :: pushGroups (bs.drop 6) := by
  match bs with
  | [_] | [_, _] | [_, _, _] | [_, _, _, _] | [_, _, _, _, _] => rfl
  | _ :: _ :: _ :: _ :: _ :: _ :: _ => rfl

/-- Induction along the groups. -/
theorem pushGroups_induction {P : List Byte → Prop} (nil : P []) (group : ∀ bs, bs ≠ [] → P (bs.drop 6) → P bs)
    (bs : List Byte) : P bs :=
  if h : bs = [] then h ▸ nil else group bs h (pushGroups_induction nil group (bs.drop 6))
termination_by bs.length
decreasing_by
  have := List.length_pos_iff.mpr h
  rw [List.length_drop]
  omega

theorem take6_length_pos {bs : List Byte} (h : bs ≠ []) : 1 ≤ (bs.take 6).length := by
  have := List.length_pos_iff.mpr h
  rw [List.length_take]
  omega

theorem pushGroups_length (bs : List Byte) : (pushGroups bs).length = (bs.length + 5) / 6 := by
  induction bs using pushGroups_induction with
  | nil => rfl
  | group bs h ih =>
    have := List.length_pos_iff.mpr h
    rw [pushGroups_eq_cons h, List.length_cons, ih, List.length_drop]
    omega

theorem pushGroups_wellFormed (bs : List Byte) : ∀ i ∈ pushGroups bs, i.wellFormed = true := by
  induction bs using pushGroups_induction with
  | nil => exact List.forall_mem_nil _
  | group bs h ih =>
    rw [pushGroups_eq_cons h, List.forall_mem_cons]
    exact ⟨pushGroup_wellFormed (take6_length_pos h) (List.length_take_le 6 bs), ih⟩

/-- The groups of a sequence that fits append it to the buffer, one after another. -/
theorem execSeq_pushGroups (bs : List Byte) (s : State) (hroom : s.buf.length + bs.length ≤ Config.bufMax) :
    execSeq (pushGroups bs) (s.withStatus .ok) = .next ((s.withBuf (s.buf ++ bs)).withStatus .ok) := by
  induction bs using pushGroups_induction generalizing s with
  | nil => rw [List.append_nil]; rfl
  | group bs h ih =>
    have hsplit : (bs.take 6).length + (bs.drop 6).length = bs.length := by
      rw [← List.length_append, List.take_append_drop]
    have hgroup := exec_pushGroup (take6_length_pos h) (List.length_take_le 6 bs) (s := s.withStatus .ok)
      (by rw [State.withStatus_buf]; omega)
    have hrest := ih (s.withBuf (s.buf ++ bs.take 6)) (by rw [State.withBuf_buf, List.length_append]; omega)
    rw [State.withBuf_buf, List.append_assoc, List.take_append_drop] at hrest
    rw [pushGroups_eq_cons h, execSeq_cons hgroup]
    exact hrest

/-! ## BLOAD -/

/-- BCLR makes room for whatever fits the capacity. -/
theorem execSeq_bload {bs : List Byte} (h : bs.length ≤ Config.bufMax) (s : State) :
    execSeq (bload bs) s = .next ((s.withBuf bs).withStatus .ok) := by
  rw [bload, execSeq_cons (t := (s.withBuf []).withStatus .ok) rfl]
  exact execSeq_pushGroups bs (s.withBuf []) (by simpa using h)

/-- Settles O59: the run, the words and the number of the commands, each along the groups. -/
theorem bloadLoadsTheBytes : Obligations.BloadLoadsTheBytes := by
  refine fun bs s h => ⟨execSeq_bload h s, List.forall_mem_cons.mpr ⟨rfl, pushGroups_wellFormed bs⟩, ?_⟩
  rw [bload, List.length_cons, pushGroups_length, Nat.add_comm]

end Sys2Proof.Machine
end

section
/-! PROOFS. The nine host access commands (spec/40_host_access.md R80 to R88): which words with a command's OP byte are
legal, and what the command does where its operands pass the checks and where they fail one. -/

namespace Sys2Proof

/-! ## The OP bytes of the host access commands (R63)

A word with the OP byte of a command is decoded by that command's format. -/

section
variable {w : CommandWord}

theorem decode_of_op_nop (h : opField w = 0x00#8) : decode w = formatN w .nop := by simp only [decode, h]

theorem decode_of_op_rst (h : opField w = 0x01#8) : decode w = formatN w .rst := by simp only [decode, h]

theorem decode_of_op_wr (h : opField w = 0x02#8) : decode w = .instr (.wr (aField w) (immField w)) := by
  simp only [decode, h]

theorem decode_of_op_rd (h : opField w = 0x03#8) : decode w = formatR w := by simp only [decode, h]

theorem decode_of_op_mov (h : opField w = 0x04#8) : decode w = formatM w := by simp only [decode, h]

theorem decode_of_op_bclr (h : opField w = 0x08#8) : decode w = formatN w .bclr := by simp only [decode, h]

theorem decode_of_op_bpush (h : opField w = 0x09#8) : decode w = formatP w := by simp only [decode, h]

theorem decode_of_op_brd (h : opField w = 0x0A#8) : decode w = formatX w := by simp only [decode, h]

theorem decode_of_op_bwr (h : opField w = 0x0B#8) : decode w = formatY w := by simp only [decode, h]

end

namespace Machine

/-! ## Legal and illegal words -/

/-- A word selects its format's command where the format's condition holds, and is illegal where it does not (R61, R65). -/
theorem legal_or_illegal_of_format {w : CommandWord} {f : Decoded} {P : Prop} {i : Instr} (s : State)
    (hw : decode w = f) (hf : ∀ j, f = .instr j ↔ P ∧ i = j) :
    (P → decode w = .instr i) ∧ (¬ P → issue w s = .next { s with status := .errIllegalCmd }) := by
  refine ⟨fun hP => hw.trans ((hf i).mpr ⟨hP, rfl⟩), fun hP => ?_⟩
  obtain ⟨e, he⟩ := (decode_illegal_iff w).mpr fun j hj => hP ((hf j).mp (hw.symm.trans hj)).1
  exact issue_of_illegal s he

/-- A command whose OP byte is decoded by format N has one word, that with A and IMM zero (R61). -/
theorem onlyWord_mkWord {op : BitVec 8} {i : Instr} (h : ∀ w, opField w = op → decode w = formatN w i) :
    OnlyWord (mkWord op 0 0) i := by
  have hword : decode (mkWord op 0 0) = .instr i := by
    rw [h _ (opField_mkWord ..), formatN_eq_instr, aField_mkWord, immField_mkWord]
    exact ⟨rfl, rfl, rfl⟩
  exact onlyWord_of_formatN _ i hword (fun w hop => h w (by rw [hop, opField_mkWord]))
    ⟨aField_mkWord .., immField_mkWord ..⟩

/-! ## Register commands -/

theorem exec_wr_of_dest {d : BitVec 8} {r : RegName} (v : Datum) (s : State) (hd : destOfIndex d = some r) :
    exec (.wr d v) s = .next ((s.writeReg r v).withStatus .ok) := by rw [exec, execWr, hd]; rfl

theorem exec_wr_of_no_dest {d : BitVec 8} (v : Datum) (s : State) (hd : destOfIndex d = none) :
    exec (.wr d v) s = .next (s.withStatus .errBadReg) := by rw [exec, execWr, hd]; rfl

theorem exec_rd_of_reg {x : BitVec 8} {r : RegName} (s : State) (hx : regOfIndex x = some r) :
    exec (.rd x) s = .next ((s.withDout (s.readReg r)).withStatus .ok) := by rw [exec, execRd, hx]; rfl

theorem exec_rd_of_no_reg {x : BitVec 8} (s : State) (hx : regOfIndex x = none) :
    exec (.rd x) s = .next (s.withStatus .errBadReg) := by rw [exec, execRd, hx]; rfl

theorem exec_mov_of_dest_of_reg {d x : BitVec 8} {q r : RegName} (s : State) (hd : destOfIndex d = some q)
    (hx : regOfIndex x = some r) : exec (.mov d x) s = .next ((s.writeReg q (s.readReg r)).withStatus .ok) := by
  rw [exec, execMov, hd, hx]; rfl

theorem exec_mov_of_no_dest_or_no_reg {d x : BitVec 8} (s : State)
    (h : destOfIndex d = none ∨ regOfIndex x = none) : exec (.mov d x) s = .next (s.withStatus .errBadReg) := by
  rw [exec, execMov]
  rcases h with hd | hx
  · rw [hd]; rfl
  · rw [hx]; cases destOfIndex d <;> rfl

/-- What WR and MOV leave: the datum's low bits in the destination, OK in STATUS, all else as before (R82, R84). -/
theorem writeReg_ok_frame (s : State) (v : Datum) {d : RegName} (hd : d.access = .rw) {t : State}
    (ht : t = (s.writeReg d v).withStatus .ok) :
    (t.readReg d).toNat = v.toNat % 2 ^ d.width ∧
      (∀ r' : RegName, r' ≠ d → r' ≠ .status → t.readReg r' = s.readReg r') ∧ t.status = .ok ∧
      (∀ a : Nat, Memory.read t.buf a = Memory.read s.buf a) ∧ t.port = s.port := by
  obtain ⟨hsame, hother⟩ := registerWriteReadsBack s d v hd
  have hne : d ≠ .status := by rintro rfl; cases hd
  subst ht
  refine ⟨?_, fun r' hr' hst => ?_, rfl, fun a => ?_, writeReg_port ..⟩
  · rw [readReg_withStatus _ _ _ hne, hsame]
  · rw [readReg_withStatus _ _ _ hst, hother r' hr']
  · rw [State.withStatus_buf, writeReg_buf]

/-! ## BPUSH -/

section
variable {n : BitVec 8} {v : Datum} {s : State}

theorem exec_bpush_of_room (hp : pushOperandsOk n v = true) (hroom : s.buf.length + n.toNat ≤ Config.bufMax) :
    exec (.bpush n v) s = .next ((s.withBuf (Memory.push s.buf (be n.toNat v))).withStatus .ok) := by
  rw [exec, execBpush, if_pos hp, requireRoom_of_le _ hroom, complete_eq]

theorem exec_bpush_of_overflow (hp : pushOperandsOk n v = true) (hfull : Config.bufMax < s.buf.length + n.toNat) :
    exec (.bpush n v) s = .next (s.withStatus .errBufOverflow) := by
  rw [exec, execBpush, if_pos hp, requireRoom_of_lt _ hfull]

end

/-! ## The statements -/

/-- Settles O16: NOP by its meaning, its words by format N. -/
theorem nopWritesOnlyStatus : Obligations.NopWritesOnlyStatus :=
  ⟨fun _ => rfl, onlyWord_mkWord fun _ => decode_of_op_nop⟩

/-- Settles O17: RST leaves the reset state but for the host's port, which no register shows. -/
theorem rstResetsTheBlock : Obligations.RstResetsTheBlock := by
  obtain ⟨hregs, hstate, hprev, hstatus, hbuf⟩ := resetLeavesSpecValues
  refine ⟨fun s => ⟨State.reset.withPort s.port, rfl, fun r => ?_, hstate, hprev, hstatus, hbuf⟩,
    onlyWord_mkWord fun _ => decode_of_op_rst⟩
  rw [readReg_withPort, hregs]

/-- Settles O18: the index names a destination or none, and WR's format has no condition. -/
theorem wrWritesOneRegister : Obligations.WrWritesOneRegister := by
  refine ⟨fun rd value s r hr hrw => ?_, fun rd value s hro => ?_, fun w => decode_of_op_wr⟩
  · have hd := (destOfIndex_eq_some_iff rd r).mpr ⟨hr, hrw⟩
    exact ⟨_, exec_wr_of_dest value s hd, writeReg_ok_frame s value hrw rfl⟩
  · exact exec_wr_of_no_dest value s ((destOfIndex_eq_none_iff rd).mpr hro)

/-- Settles O19: the index names a register or none; format R asks for a zero IMM. -/
theorem rdReadsAnyRegister : Obligations.RdReadsAnyRegister :=
  ⟨fun _ s _ => exec_rd_of_reg s, fun _ s => exec_rd_of_no_reg s,
    fun w s hop => legal_or_illegal_of_format s (decode_of_op_rd hop) (formatR_eq_instr w)⟩

/-- Settles O20: both indices name registers, the destination a read-write one, or one of them does not; format M asks
for an IMM below 2^8. -/
theorem movCopiesOneRegister : Obligations.MovCopiesOneRegister := by
  refine ⟨fun rd rs s d r hd hrw hr => ?_, fun rd rs s hbad => ?_, fun w s hop => ?_⟩
  · have hdest := (destOfIndex_eq_some_iff rd d).mpr ⟨hd, hrw⟩
    exact ⟨_, exec_mov_of_dest_of_reg s hdest hr, writeReg_ok_frame s (s.readReg r) hrw rfl⟩
  · exact exec_mov_of_no_dest_or_no_reg s (hbad.imp_left (destOfIndex_eq_none_iff rd).mpr)
  · rw [← Nat.not_lt]
    exact legal_or_illegal_of_format s (decode_of_op_mov hop) (formatM_eq_instr w)

/-- Settles O21: BCLR by its meaning, its words by format N. -/
theorem bclrEmptiesBuffer : Obligations.BclrEmptiesBuffer :=
  ⟨fun _ => rfl, onlyWord_mkWord fun _ => decode_of_op_bclr⟩

/-- Settles O22: the bytes are those of `be`, one by one, and format P's condition is that of the operands. -/
theorem bpushAppendsBytes : Obligations.BpushAppendsBytes := by
  refine ⟨fun n value s hpos hle hlt => ?_, fun w s hop => ?_⟩
  · have hp := (pushOperandsOk_iff n value).mpr ⟨hpos, hle, hlt⟩
    rw [← be_eq_map_range]
    exact ⟨exec_bpush_of_room hp, exec_bpush_of_overflow hp⟩
  · rw [← pushOperandsOk_iff]
    exact legal_or_illegal_of_format s (decode_of_op_bpush hop) (formatP_eq_instr w)

/-- Settles O23: the index is valid or not; format X asks for a zero A and an IMM below 2^16. -/
theorem brdReadsOneByte : Obligations.BrdReadsOneByte :=
  ⟨fun _ _ _ => requireIndex_of_read _, fun _ _ => requireIndex_of_le _, fun w s hop =>
    legal_or_illegal_of_format s (decode_of_op_brd hop) fun j => (formatX_eq_instr w j).trans and_assoc.symm⟩

/-- Settles O24: the new buffer is the old one written at the index; format Y asks for an IMM below 2^16. -/
theorem bwrOverwritesOneByte : Obligations.BwrOverwritesOneByte := by
  refine ⟨fun idx byte s hidx => ?_, fun idx byte s => requireIndex_of_le _, fun w s hop => ?_⟩
  · exact ⟨Memory.write s.buf idx.toNat byte, requireIndex_of_read _ (List.getElem?_eq_getElem hidx),
      Memory.length_write _ _ _, Memory.read_write_same _ _ _ hidx, fun a => Memory.read_write_other _ _ a _⟩
  · rw [← Nat.not_lt]
    exact legal_or_illegal_of_format s (decode_of_op_bwr hop) (formatY_eq_instr w)

end Machine

end Sys2Proof
end

section
/-! PROOFS. The checksum engine (spec/41_checksum.md R100 to R106): inputs summed byte by byte where no bound on their
length holds, and through the integer sum of their words where R104 bounds it. -/

namespace Sys2Proof.Machine

/-! ## Summing zero bytes -/

/-- The byte that completes a trailing half word is the zero the loop supplies (R102). -/
theorem sumWords_append_zero_of_odd (acc : Acc) (s : List Byte) (h : s.length % 2 = 1) :
    sumWords acc (s ++ [0#8]) = sumWords acc s := by
  induction acc, s using sumWords.induct with
  | case1 acc => simp at h
  | case2 acc b => rfl
  | case3 acc a b rest ih =>
    simp only [List.length_cons] at h
    exact ih (by omega)

theorem sumWords_replicate_zero (acc : Acc) (n : Nat) : sumWords acc (List.replicate n 0#8) = acc := by
  have hzero : accAdd acc (0#8 ++ 0#8) = acc := BitVec.add_zero acc
  induction n using Nat.twoStepInduction with
  | zero => rfl
  | one => exact hzero
  | more n ih _ => rw [List.replicate_succ, List.replicate_succ, sumWords, hzero, ih]

/-! ## The statements -/

/-- Settles O25: the folded value, as a number, lies below 2^16, is zero for zero only and keeps the residue. -/
theorem foldLeavesNoCarry : Obligations.FoldLeavesNoCarry := by
  intro acc
  have hfold := fold_toNat acc
  split at hfold <;>
    exact ⟨(high_eq_zero_iff _).mpr (by omega), fun n => foldLoop_eq_fold n acc, by omega, by omega⟩

/-- Settles O26: the loop sums both inputs to the same accumulator, and a word by itself is its own fold. -/
theorem oddInputPadsWithZeroByte : Obligations.OddInputPadsWithZeroByte := by
  refine ⟨fun s h => ?_, fun b => BitVec.eq_of_toNat_eq ?_⟩
  · rw [checksum, sumWords_append_zero_of_odd 0 s h, checksum]
  · have hword : (b ++ 0x00#8).toNat = wordSum [b] := bytePair_toNat b 0
    have hlt := (b ++ 0x00#8).isLt
    rw [checksum_toNat [b] (by simp), BitVec.toNat_not, hword]
    split <;> omega

/-- Settles O27: the accumulator stays 0, and the complement of its fold is 0xFFFF. -/
theorem zeroInputGivesAllOnes : Obligations.ZeroInputGivesAllOnes := by
  intro n
  rw [checksum, sumWords_replicate_zero]
  rfl

/-- Settles O28: from a zero accumulator no bit is dropped, the sum of the words being below 2^32. -/
theorem accumulatorHoldsExactSum : Obligations.AccumulatorHoldsExactSum := by
  intro s h
  have hlt : (0 : Acc).toNat + wordSum s < 2 ^ 32 := (Nat.zero_add _).trans_lt (wordSum_lt s h)
  exact (sumWords_toNat 0 s hlt).trans (Nat.zero_add _)

/-- Settles O29: S is the folded sum. -/
theorem checksumIsOnesComplementOfSum : Obligations.ChecksumIsOnesComplementOfSum := by
  refine fun s h => ⟨_, checksum_toNat s h, fun hzero => if_pos hzero, fun hpos => ?_⟩
  rw [if_neg hpos]
  omega

/-- Settles O30: the field's word goes from 0 to the checksum, so the sum becomes a positive multiple of 0xFFFF. -/
theorem embeddedChecksumVerifiesToZero : Obligations.EmbeddedChecksumVerifiesToZero := by
  intro s j hlen heven hj hhigh hlow
  have hset := wordSum_set_pair s j heven hj ((checksum s).extractLsb' 8 8) ((checksum s).extractLsb' 0 8)
  have hfield : 256 * (s.getD j 0).toNat + (s.getD (j + 1) 0).toNat = 0 := by
    simp [List.getD_eq_getElem?_getD, hhigh, hlow]
  rw [hfield, Nat.add_zero, split16] at hset
  rw [checksum_eq_zero_iff _ (by simpa using hlen), hset]
  exact checksum_complements s hlen

theorem decode_of_op_csumBuf {w : CommandWord} (h : opField w = 0x10#8) : decode w = formatN w .csumBuf := by
  simp only [decode, h]

/-- Settles O31: CSUM.BUF by its meaning, its words by format N. -/
theorem csumBufSumsTheBuffer : Obligations.CsumBufSumsTheBuffer :=
  ⟨fun _ => rfl, onlyWord_mkWord fun _ => decode_of_op_csumBuf⟩

end Sys2Proof.Machine
end

section
/-! PROOFS. The Ethernet codec (spec/42_ethernet.md R110 to R114): what each command does where its check of the
buffer's length passes and where it fails, the header as bytes, and the two codec commands as inverses of each other. -/

namespace Sys2Proof.Machine

theorem decode_of_op_ethEnc {w : CommandWord} (h : opField w = 0x20#8) : decode w = formatN w .ethEnc := by
  simp only [decode, h]

theorem decode_of_op_ethDec {w : CommandWord} (h : opField w = 0x21#8) : decode w = formatN w .ethDec := by
  simp only [decode, h]

/-! ## The two commands by the length of the buffer -/

section
variable {s : State}

theorem exec_ethEnc_of_room (h : s.buf.length + 14 ≤ Config.bufMax) :
    exec .ethEnc s = .next ((s.withBuf (Memory.prepend s.buf (ethHdrBytes s.eth))).withStatus .ok) :=
  requireRoom_of_le _ h

theorem exec_ethEnc_of_overflow (h : Config.bufMax < s.buf.length + 14) :
    exec .ethEnc s = .next (s.withStatus .errBufOverflow) := requireRoom_of_lt _ h

theorem exec_ethDec_of_frame (h : 14 ≤ s.buf.length) :
    exec .ethDec s = .next (((s.withEth (ethRegsOf s.buf)).withBuf (Memory.strip s.buf 14)).withStatus .ok) :=
  requireLen_of_le _ h

theorem exec_ethDec_of_short (h : s.buf.length < 14) :
    exec .ethDec s = .next (s.withStatus .errFrameTooSmall) := requireLen_of_lt _ h

end

/-! ## The header as bytes -/

/-- The 14 bytes written out, destination MAC first, high byte first (R110). -/
theorem ethHdrBytes_eq (r : EthRegs) : ethHdrBytes r =
    [r.dst.extractLsb' 40 8, r.dst.extractLsb' 32 8, r.dst.extractLsb' 24 8,
     r.dst.extractLsb' 16 8, r.dst.extractLsb' 8 8, r.dst.extractLsb' 0 8,
     r.src.extractLsb' 40 8, r.src.extractLsb' 32 8, r.src.extractLsb' 24 8,
     r.src.extractLsb' 16 8, r.src.extractLsb' 8 8, r.src.extractLsb' 0 8,
     r.etherType.extractLsb' 8 8, r.etherType.extractLsb' 0 8] := by
  rw [ethHdrBytes, be_six, be_six, be_two]
  rfl

/-- The fields of a frame whose first 14 bytes are written out (R112). -/
theorem ethRegsOf_bytes (b0 b1 b2 b3 b4 b5 b6 b7 b8 b9 b10 b11 b12 b13 : Byte) (rest : List Byte) :
    ethRegsOf ([b0, b1, b2, b3, b4, b5, b6, b7, b8, b9, b10, b11, b12, b13] ++ rest) =
      { dst := b0 ++ b1 ++ b2 ++ b3 ++ b4 ++ b5, src := b6 ++ b7 ++ b8 ++ b9 ++ b10 ++ b11,
        etherType := b12 ++ b13 } := by
  rw [← fromBe_six, ← fromBe_six, ← fromBe_two]
  rfl

/-- A frame made of a header's bytes and a payload decodes to that header and that payload. -/
theorem exec_ethDec_of_header {s : State} {r : EthRegs} {m : Memory} (h : s.buf = Memory.prepend m (ethHdrBytes r)) :
    exec .ethDec s = .next (((s.withEth r).withBuf m).withStatus .ok) := by
  have hlen : 14 ≤ s.buf.length := by rw [h, Memory.prepend, List.length_append, ethHdrBytes_length]; omega
  have hregs : ethRegsOf s.buf = r := by rw [h, Memory.prepend, ethRegsOf_hdr]
  have hrest : Memory.strip s.buf 14 = m := by rw [h, Memory.strip_prepend _ _ _ (ethHdrBytes_length r)]
  rw [exec_ethDec_of_frame hlen, hregs, hrest]

/-! ## The statements -/

/-- Settles O34: a decode reads back the header an encode wrote, and the header of what a decode read, put before
what it left, is the frame again, which the capacity held before. -/
theorem ethRoundTrip : Obligations.EthRoundTrip := by
  refine ⟨fun s hroom => ?_, fun s hinv hlen => ?_⟩
  · exact ⟨_, exec_ethEnc_of_room hroom, rfl, exec_ethDec_of_header rfl⟩
  · have hroom : (Memory.strip s.buf 14).length + 14 ≤ Config.bufMax := by
      rw [Memory.strip, List.length_drop, Nat.sub_add_cancel hlen]
      exact (Memory.wf_iff _).mp hinv
    exact ⟨_, _, exec_ethDec_of_frame hlen, rfl, exec_ethEnc_of_room hroom, rfl, ethHdr_of_regs s.buf hlen⟩

/-- Settles O32: there is room for the header, whose bytes `ethHdrBytes_eq` writes out, or not. -/
theorem ethEncPrependsHeader : Obligations.EthEncPrependsHeader := by
  refine ⟨fun s hroom => ?_, fun _ => exec_ethEnc_of_overflow, onlyWord_mkWord fun _ => decode_of_op_ethEnc⟩
  rw [← ethHdrBytes_eq]
  exact exec_ethEnc_of_room hroom

/-- Settles O33: the frame has its 14 bytes or not; the fields are those of the bytes written out. -/
theorem ethDecStripsHeader : Obligations.EthDecStripsHeader := by
  refine ⟨fun s b0 b1 b2 b3 b4 b5 b6 b7 b8 b9 b10 b11 b12 b13 rest hbuf => ?_, fun _ => exec_ethDec_of_short,
    onlyWord_mkWord fun _ => decode_of_op_ethDec⟩
  have hlen : 14 ≤ s.buf.length := by rw [hbuf, List.length_append]; exact Nat.le_add_right 14 _
  rw [exec_ethDec_of_frame hlen, hbuf, ethRegsOf_bytes]
  rfl

end Sys2Proof.Machine
end

section
/-! PROOFS. The IPv4 codec (spec/43_ipv4.md R120 to R126): what each command does where its check of the buffer's length
passes and where it fails, the header as bytes, and the checksum embedded in it, which reads neither of the two fields
that differ between a header encoded and the same header decoded. -/

namespace Sys2Proof.Machine

theorem decode_of_op_ip4Enc {w : CommandWord} (h : opField w = 0x30#8) : decode w = formatN w .ip4Enc := by
  simp only [decode, h]

theorem decode_of_op_ip4Dec {w : CommandWord} (h : opField w = 0x31#8) : decode w = formatN w .ip4Dec := by
  simp only [decode, h]

theorem decode_of_op_ip4Csum {w : CommandWord} (h : opField w = 0x32#8) : decode w = formatN w .ip4Csum := by
  simp only [decode, h]

/-! ## The header as bytes -/

/-- The 20 bytes written out, the constant 0x45 first, each field high byte first (R120). -/
theorem ip4HdrBytes_eq (r : Ip4Regs) (ck : BitVec 16) : ip4HdrBytes r ck =
    [0x45#8, r.dscpEcn, r.totalLength.extractLsb' 8 8, r.totalLength.extractLsb' 0 8,
     r.id.extractLsb' 8 8, r.id.extractLsb' 0 8, r.flagsFrag.extractLsb' 8 8, r.flagsFrag.extractLsb' 0 8,
     r.ttl, r.protocol, ck.extractLsb' 8 8, ck.extractLsb' 0 8,
     r.src.extractLsb' 24 8, r.src.extractLsb' 16 8, r.src.extractLsb' 8 8, r.src.extractLsb' 0 8,
     r.dst.extractLsb' 24 8, r.dst.extractLsb' 16 8, r.dst.extractLsb' 8 8, r.dst.extractLsb' 0 8] := by
  simp only [ip4HdrBytes, be_two, be_four]
  rfl

/-- The fields of a packet whose first 20 bytes are written out (R123). -/
theorem ip4RegsOf_bytes (b0 b1 b2 b3 b4 b5 b6 b7 b8 b9 b10 b11 b12 b13 b14 b15 b16 b17 b18 b19 : Byte)
    (rest : List Byte) :
    ip4RegsOf ([b0, b1, b2, b3, b4, b5, b6, b7, b8, b9, b10, b11, b12, b13, b14, b15, b16, b17, b18, b19] ++ rest) =
      { verIhl := b0, dscpEcn := b1, totalLength := b2 ++ b3, id := b4 ++ b5, flagsFrag := b6 ++ b7, ttl := b8,
        protocol := b9, headerChecksum := b10 ++ b11, src := b12 ++ b13 ++ b14 ++ b15,
        dst := b16 ++ b17 ++ b18 ++ b19 } := by
  rw [← fromBe_four, ← fromBe_four, ← fromBe_two, ← fromBe_two, ← fromBe_two, ← fromBe_two]
  rfl

/-- The checksum field stands in bytes 10 and 11, high byte first (R120). -/
theorem read_ip4HdrBytes_checksum (r : Ip4Regs) (ck : BitVec 16) (m : Memory) :
    Memory.read (Memory.prepend m (ip4HdrBytes r ck)) 10 = some (ck.extractLsb' 8 8) ∧
      Memory.read (Memory.prepend m (ip4HdrBytes r ck)) 11 = some (ck.extractLsb' 0 8) := by
  rw [ip4HdrBytes_eq]
  exact ⟨rfl, rfl⟩

/-- The total length of an encode is not truncated where the packet fits the buffer (R122). -/
theorem ip4TotalLength_toNat {n : Nat} (h : n + 20 ≤ Config.bufMax) : (BitVec.ofNat 16 (20 + n)).toNat = 20 + n := by
  have := Config.bufMax_le
  rw [BitVec.toNat_ofNat]
  exact Nat.mod_eq_of_lt (by omega)

/-! ## The checksum of a header -/

/-- IP4_VER_IHL and IP4_HEADER_CHECKSUM do not enter the checksum (R120, R121). -/
theorem ip4Checksum_congr_unread (r : Ip4Regs) (v : Byte) (ck : BitVec 16) :
    ip4Checksum { r with verIhl := v, headerChecksum := ck } = ip4Checksum r := rfl

/-- A header with its own checksum in the checksum field sums to zero (R105, R126). -/
theorem checksum_ip4Hdr_ip4Checksum (r : Ip4Regs) : checksum (ip4HdrBytes r (ip4Checksum r)) = 0x0000#16 := by
  rw [checksum_eq_zero_iff _ (by simp), wordSum_ip4Hdr]
  exact checksum_complements (ip4HdrBytes r 0) (by simp)

/-! ## The three commands, encode and decode by the length of the buffer -/

section
variable {s : State}

theorem exec_ip4Enc_of_room (h : s.buf.length + 20 ≤ Config.bufMax) :
    exec .ip4Enc s = .next (((s.withIp4 (ip4RegsForEnc s)).withBuf
      (Memory.prepend s.buf (ip4HdrBytes (ip4RegsForEnc s) (ip4Checksum (ip4RegsForEnc s))))).withStatus .ok) :=
  requireRoom_of_le _ h

theorem exec_ip4Enc_of_overflow (h : Config.bufMax < s.buf.length + 20) :
    exec .ip4Enc s = .next (s.withStatus .errBufOverflow) := requireRoom_of_lt _ h

theorem exec_ip4Dec_of_packet (h : 20 ≤ s.buf.length) :
    exec .ip4Dec s = .next (((s.withIp4 (ip4RegsOf s.buf)).withBuf (Memory.strip s.buf 20)).withStatus .ok) :=
  requireLen_of_le _ h

theorem exec_ip4Dec_of_short (h : s.buf.length < 20) :
    exec .ip4Dec s = .next (s.withStatus .errPacketTooSmall) := requireLen_of_lt _ h

theorem exec_ip4Csum (s : State) :
    exec .ip4Csum s = .next ((s.withCsumResult (ip4Checksum s.ip4)).withStatus .ok) := rfl

/-- A packet made of a header's bytes and a payload decodes to that payload and that header, but for the two fields the
encode does not read (R126). -/
theorem exec_ip4Dec_of_header {r : Ip4Regs} {ck : BitVec 16} {m : Memory}
    (h : s.buf = Memory.prepend m (ip4HdrBytes r ck)) :
    exec .ip4Dec s =
      .next (((s.withIp4 { r with verIhl := 0x45#8, headerChecksum := ck }).withBuf m).withStatus .ok) := by
  have hlen : 20 ≤ s.buf.length := by rw [h, Memory.prepend, List.length_append, ip4HdrBytes_length]; omega
  have hregs : ip4RegsOf s.buf = { r with verIhl := 0x45#8, headerChecksum := ck } := by
    rw [h, Memory.prepend, ip4RegsOf_hdr]
  have hrest : Memory.strip s.buf 20 = m := by rw [h, Memory.strip_prepend _ _ _ (ip4HdrBytes_length r ck)]
  rw [exec_ip4Dec_of_packet hlen, hregs, hrest]

end

/-! ## The statements -/

/-- Settles O38: the decode reads back the registers the encode wrote out, with the checksum it embedded. -/
theorem ip4RoundTrip : Obligations.Ip4RoundTrip := by
  intro s hroom
  refine ⟨_, _, exec_ip4Enc_of_room hroom, rfl, exec_ip4Dec_of_header rfl, rfl, rfl, ?_, ?_, rfl⟩
  · exact ip4TotalLength_toNat hroom
  · rw [State.withStatus_ip4, State.withBuf_ip4, State.withIp4_ip4, ip4Checksum_congr_unread]
    rfl

/-- Settles O39: the first 20 bytes are the header with its own checksum, which the encode computed from the registers
it leaves. -/
theorem ip4EncodedHeaderVerifies : Obligations.Ip4EncodedHeaderVerifies := by
  intro s hroom
  refine ⟨_, _, exec_ip4Enc_of_room hroom, ?_, exec_ip4Csum _, read_ip4HdrBytes_checksum _ _ _⟩
  rw [State.withStatus_buf, State.withBuf_buf, Memory.prepend, List.take_left' (ip4HdrBytes_length _ _)]
  exact checksum_ip4Hdr_ip4Checksum _

/-- Settles O40: the registers the decode leaves have the checksum of the header, which is the one on the wire. -/
theorem ip4ReceiveCheckAgrees : Obligations.Ip4ReceiveCheckAgrees := fun _ r _ hbuf =>
  ⟨_, _, exec_ip4Dec_of_header hbuf, exec_ip4Csum _, ip4Checksum_congr_unread r 0x45#8 (ip4Checksum r), rfl, rfl⟩

/-- Settles O35: there is room for the header, whose bytes `ip4HdrBytes_eq` writes out, or not. -/
theorem ip4EncPrependsHeader : Obligations.Ip4EncPrependsHeader := by
  refine ⟨fun s hdr tl htl hhdr hroom => ?_, fun _ => exec_ip4Enc_of_overflow,
    onlyWord_mkWord fun _ => decode_of_op_ip4Enc⟩
  subst htl
  have hbytes : hdr = ip4HdrBytes (ip4RegsForEnc s) :=
    funext fun ck => (hhdr ck).trans (ip4HdrBytes_eq (ip4RegsForEnc s) ck).symm
  subst hbytes
  exact ⟨ip4TotalLength_toNat hroom, exec_ip4Enc_of_room hroom⟩

/-- Settles O36: the packet has its 20 bytes or not; the fields are those of the bytes written out. -/
theorem ip4DecStripsHeader : Obligations.Ip4DecStripsHeader := by
  refine ⟨fun s b0 b1 b2 b3 b4 b5 b6 b7 b8 b9 b10 b11 b12 b13 b14 b15 b16 b17 b18 b19 rest hbuf => ?_,
    fun _ => exec_ip4Dec_of_short, onlyWord_mkWord fun _ => decode_of_op_ip4Dec⟩
  have hlen : 20 ≤ s.buf.length := by rw [hbuf, List.length_append]; exact Nat.le_add_right 20 _
  rw [exec_ip4Dec_of_packet hlen, hbuf, ip4RegsOf_bytes]
  rfl

/-- Settles O37: the checksum is that of the bytes `ip4HdrBytes_eq` writes out, with a zero checksum field. -/
theorem ip4CsumSumsTheRegisters : Obligations.Ip4CsumSumsTheRegisters := by
  refine ⟨fun s => ?_, onlyWord_mkWord fun _ => decode_of_op_ip4Csum⟩
  rw [exec_ip4Csum, ip4Checksum, ip4HdrBytes_eq]
  rfl

end Sys2Proof.Machine
end

section
/-! PROOFS. The TCP codec (spec/44_tcp.md R135 to R143): what each command does where its check of the buffer's length
passes and where it fails, the header and the pseudo-header as bytes, and the checksum, which reads neither of the two
fields that differ between a header encoded and the same header decoded. -/

namespace Sys2Proof.Machine

theorem decode_of_op_tcpEnc {w : CommandWord} (h : opField w = 0x40#8) : decode w = formatN w .tcpEnc := by
  simp only [decode, h]

theorem decode_of_op_tcpDec {w : CommandWord} (h : opField w = 0x41#8) : decode w = formatN w .tcpDec := by
  simp only [decode, h]

theorem decode_of_op_tcpCsum {w : CommandWord} (h : opField w = 0x42#8) : decode w = formatN w .tcpCsum := by
  simp only [decode, h]

/-! ## The header as bytes -/

/-- The 20 bytes written out, the constant 0x50 at index 12, each field high byte first (R135). -/
theorem tcpHdrBytes_eq (r : TcpRegs) (ck : BitVec 16) : tcpHdrBytes r ck =
    [r.srcPort.extractLsb' 8 8, r.srcPort.extractLsb' 0 8, r.dstPort.extractLsb' 8 8, r.dstPort.extractLsb' 0 8,
     r.seq.extractLsb' 24 8, r.seq.extractLsb' 16 8, r.seq.extractLsb' 8 8, r.seq.extractLsb' 0 8,
     r.ack.extractLsb' 24 8, r.ack.extractLsb' 16 8, r.ack.extractLsb' 8 8, r.ack.extractLsb' 0 8,
     0x50#8, r.flags, r.window.extractLsb' 8 8, r.window.extractLsb' 0 8,
     ck.extractLsb' 8 8, ck.extractLsb' 0 8, r.urgent.extractLsb' 8 8, r.urgent.extractLsb' 0 8] := by
  simp only [tcpHdrBytes, be_two, be_four]
  rfl

/-- The fields of a segment whose first 20 bytes are written out (R139). -/
theorem tcpRegsOf_bytes (b0 b1 b2 b3 b4 b5 b6 b7 b8 b9 b10 b11 b12 b13 b14 b15 b16 b17 b18 b19 : Byte)
    (rest : List Byte) :
    tcpRegsOf ([b0, b1, b2, b3, b4, b5, b6, b7, b8, b9, b10, b11, b12, b13, b14, b15, b16, b17, b18, b19] ++ rest) =
      { srcPort := b0 ++ b1, dstPort := b2 ++ b3, seq := b4 ++ b5 ++ b6 ++ b7, ack := b8 ++ b9 ++ b10 ++ b11,
        dataOffset := b12.extractLsb' 4 4, flags := b13, window := b14 ++ b15, checksum := b16 ++ b17,
        urgent := b18 ++ b19 } := by
  rw [← fromBe_four, ← fromBe_four, ← fromBe_two, ← fromBe_two, ← fromBe_two, ← fromBe_two, ← fromBe_two]
  rfl

/-- The data offset is the high half of byte 12 (R139). -/
theorem dataOffsetOf_toNat (m : Memory) : (dataOffsetOf m).toNat = (byteAt m 12).toNat / 16 := by
  have := (byteAt m 12).isLt
  rw [dataOffsetOf, BitVec.extractLsb'_toNat, Nat.shiftRight_eq_div_pow]
  omega

/-! ## The pseudo-header and the checksum -/

/-- The 12 bytes written out, the two addresses, a zero byte, the protocol 6 and the TCP length (R136). -/
theorem tcpPseudoHeader_eq (src dst : BitVec 32) (plen : Nat) : tcpPseudoHeader src dst plen =
    [src.extractLsb' 24 8, src.extractLsb' 16 8, src.extractLsb' 8 8, src.extractLsb' 0 8,
     dst.extractLsb' 24 8, dst.extractLsb' 16 8, dst.extractLsb' 8 8, dst.extractLsb' 0 8,
     0x00#8, 0x06#8, (BitVec.ofNat 16 (20 + plen)).extractLsb' 8 8, (BitVec.ofNat 16 (20 + plen)).extractLsb' 0 8] := by
  simp only [tcpPseudoHeader, be_two, be_four]
  rfl

/-- TCP_DATA_OFFSET and TCP_CHECKSUM do not enter the checksum (R135, R137). -/
theorem tcpChecksum_congr_unread (r : TcpRegs) (d : BitVec 4) (ck : BitVec 16) (payload : List Byte)
    (src dst : BitVec 32) :
    tcpChecksum { r with dataOffset := d, checksum := ck } payload src dst = tcpChecksum r payload src dst := rfl

/-! ## The three commands by the length of the buffer -/

section
variable {s : State}

theorem exec_tcpEnc_of_overflow (h : Config.bufMax < s.buf.length + 20) :
    exec .tcpEnc s = .next (s.withStatus .errBufOverflow) := requireRoom_of_lt _ h

theorem exec_tcpCsum_of_overflow (h : Config.bufMax < s.buf.length + 20) :
    exec .tcpCsum s = .next (s.withStatus .errBufOverflow) := requireRoom_of_lt _ h

theorem exec_tcpDec_of_segment (h : 20 ≤ s.buf.length) :
    exec .tcpDec s = .next (((s.withTcp (tcpRegsOf s.buf)).withBuf
      (Memory.strip s.buf (4 * (dataOffsetOf s.buf).toNat))).withStatus .ok) :=
  requireLen_of_le _ h

theorem exec_tcpDec_of_short (h : s.buf.length < 20) :
    exec .tcpDec s = .next (s.withStatus .errSegmentTooSmall) := requireLen_of_lt _ h

/-- A segment made of a header's bytes and a payload decodes to that payload and that header, but for the two fields
the encode does not take from the registers it is given (R142). -/
theorem exec_tcpDec_of_header {r : TcpRegs} {ck : BitVec 16} {m : Memory}
    (h : s.buf = Memory.prepend m (tcpHdrBytes r ck)) :
    exec .tcpDec s =
      .next (((s.withTcp { r with dataOffset := 5#4, checksum := ck }).withBuf m).withStatus .ok) := by
  have hlen : 20 ≤ s.buf.length := by rw [h, Memory.prepend, List.length_append, tcpHdrBytes_length]; omega
  have hregs : tcpRegsOf s.buf = { r with dataOffset := 5#4, checksum := ck } := by
    rw [h, Memory.prepend, tcpRegsOf_hdr]
  have hoff : dataOffsetOf s.buf = 5#4 := by rw [h, Memory.prepend, dataOffsetOf_hdr]
  have hrest : Memory.strip s.buf (4 * (5#4).toNat) = m := by
    rw [h]
    exact Memory.strip_prepend _ _ _ (tcpHdrBytes_length r ck)
  rw [exec_tcpDec_of_segment hlen, hregs, hoff, hrest]

end

/-! ## The statements -/

/-- Settles O44: the decode reads back the registers the encode wrote out, TCP_CHECKSUM as stored among them. -/
theorem tcpRoundTrip : Obligations.TcpRoundTrip := fun _ hroom =>
  ⟨_, exec_tcpEnc_of_room hroom, rfl, exec_tcpDec_of_header rfl⟩

/-- Settles O46: the registers the decode leaves have the checksum of the header sent, which is the one on the wire;
the segment fitted the buffer, so TCP.CSUM has room for its header. -/
theorem tcpReceiveCheckAgrees : Obligations.TcpReceiveCheckAgrees := by
  intro s r payload hinv hbuf
  have hroom : payload.length + 20 ≤ Config.bufMax := by
    have hcap := (Memory.wf_iff _).mp hinv
    rwa [hbuf, List.length_append, tcpHdrBytes_length, Nat.add_comm] at hcap
  exact ⟨_, _, exec_tcpDec_of_header hbuf, exec_tcpCsum_of_room hroom, tcpChecksum_congr_unread r _ _ _ _ _, rfl, rfl⟩

/-- Settles O41: there is room for the header, whose bytes `tcpHdrBytes_eq` writes out, or not. -/
theorem tcpEncPrependsHeader : Obligations.TcpEncPrependsHeader := by
  refine ⟨fun s hroom => ?_, fun _ => exec_tcpEnc_of_overflow, onlyWord_mkWord fun _ => decode_of_op_tcpEnc⟩
  rw [← tcpHdrBytes_eq]
  exact exec_tcpEnc_of_room hroom

/-- Settles O42: the segment has its 20 bytes or not; the fields are those of the bytes written out, and the buffer
left is the segment stripped of as many bytes as the high half of byte 12 says. -/
theorem tcpDecStripsHeader : Obligations.TcpDecStripsHeader := by
  refine ⟨fun s b0 b1 b2 b3 b4 b5 b6 b7 b8 b9 b10 b11 b12 b13 b14 b15 b16 b17 b18 b19 rest hbuf => ?_,
    fun _ => exec_tcpDec_of_short, onlyWord_mkWord fun _ => decode_of_op_tcpDec⟩
  have hlen : 20 ≤ s.buf.length := by rw [hbuf, List.length_append]; exact Nat.le_add_right 20 _
  have hoff : (dataOffsetOf s.buf).toNat = b12.toNat / 16 := by rw [dataOffsetOf_toNat, hbuf]; rfl
  refine ⟨Memory.strip s.buf (4 * (b12.toNat / 16)), ?_, List.length_drop, Memory.read_strip _ _⟩
  rw [exec_tcpDec_of_segment hlen, hoff, hbuf, tcpRegsOf_bytes]
  rfl

/-- Settles O43: the checksum is that of the bytes `tcpPseudoHeader_eq` and `tcpHdrBytes_eq` write out, the latter with
a zero checksum field; the capacity keeps the TCP length from wrapping, as it does the IPv4 total length. -/
theorem tcpCsumSumsPseudoHeaderAndSegment : Obligations.TcpCsumSumsPseudoHeaderAndSegment := by
  refine ⟨fun s tl htl hroom => ?_, fun _ => exec_tcpCsum_of_overflow, onlyWord_mkWord fun _ => decode_of_op_tcpCsum⟩
  subst htl
  refine ⟨ip4TotalLength_toNat hroom, ?_⟩
  rw [exec_tcpCsum_of_room hroom, tcpChecksum, tcpPseudoHeader_eq, tcpHdrBytes_eq]
  rfl

end Sys2Proof.Machine
end

section
/-! PROOFS. The TCP transition table (spec/45_tcp_fsm.md R151, R164, R167): its nine specific rows as data, the
transition function read off them, and the states that events and steps reach. -/

namespace Sys2Proof.Machine

/-! ## The table (R151) -/

/-- The rows of R151 that name their state; the tenth is receive-RST, from any state. -/
def specificRows : List (TcpState × Event × TcpState) :=
  [(.listen, .rcvSyn, .synReceived), (.synSent, .rcvSynack, .established), (.synReceived, .rcvAck, .established),
   (.established, .rcvFin, .closeWait), (.established, .sndFin, .finWait1), (.finWait1, .rcvFin, .closing),
   (.finWait2, .rcvFin, .timeWait), (.closeWait, .sndFin, .lastAck), (.closed, .sndSyn, .synSent)]

theorem mem_specificRows_of_transition {q q' : TcpState} {e : Event} (h : transition q e = some q')
    (hrst : e ≠ .rcvRst) : (q, e, q') ∈ specificRows := by
  unfold transition at h
  split at h
  case h_10 => exact absurd rfl hrst
  case h_11 => cases h
  all_goals cases h; decide

theorem delta_of_mem_specificRows : ∀ r ∈ specificRows, delta r.1 r.2.1 = (r.2.2, .ok) := by decide

theorem delta_rcvRst (q : TcpState) : delta q .rcvRst = (.closed, .ok) := by cases q <;> rfl

theorem delta_sndAck (q : TcpState) : delta q .sndAck = (q, .ok) := rfl

theorem delta_of_transition_none {q : TcpState} {e : Event} (h : transition q e = none) (hack : e ≠ .sndAck) :
    delta q e = (q, .unexpectedEvent) := by
  cases e
  case sndAck => exact absurd rfl hack
  all_goals simp only [delta, h]

/-- A pair that no row lists, send-ACK apart, leaves the state and is unexpected (R151). -/
theorem delta_of_not_mem_specificRows {q : TcpState} {e : Event} (hrst : e ≠ .rcvRst) (hack : e ≠ .sndAck)
    (hrow : ∀ q' : TcpState, (q, e, q') ∉ specificRows) : delta q e = (q, .unexpectedEvent) := by
  cases ht : transition q e with
  | none => exact delta_of_transition_none ht hack
  | some q' => exact absurd (mem_specificRows_of_transition ht hrst) (hrow q')

/-- Where an event can lead: nowhere, to CLOSED, or along a row. -/
theorem delta_fst_cases (q : TcpState) (e : Event) :
    (delta q e).1 = q ∨ (delta q e).1 = .closed ∨ (q, e, (delta q e).1) ∈ specificRows := by
  by_cases hrst : e = .rcvRst
  · subst hrst; rw [delta_rcvRst]; exact .inr (.inl rfl)
  by_cases hack : e = .sndAck
  · subst hack; exact .inl rfl
  by_cases hrow : ∃ q', (q, e, q') ∈ specificRows
  · obtain ⟨q', hq'⟩ := hrow
    rw [delta_of_mem_specificRows _ hq']
    exact .inr (.inr hq')
  · rw [delta_of_not_mem_specificRows hrst hack (not_exists.mp hrow)]
    exact .inl rfl

/-- Settles O47: the statement's rows are `specificRows`. -/
theorem deltaFollowsTheTable : Obligations.DeltaFollowsTheTable :=
  ⟨delta_of_mem_specificRows, delta_rcvRst, delta_sndAck, fun _ _ => delta_of_not_mem_specificRows, rfl, rfl⟩

/-! ## The states reached from CLOSED (R164) -/

/-- No row leads out of the seven states. -/
theorem reachable_of_mem_specificRows :
    ∀ r ∈ specificRows, r.1.reachable = true → r.2.2.reachable = true := by decide

theorem delta_keeps_reachable {q : TcpState} (e : Event) (hq : q.reachable = true) :
    (delta q e).1.reachable = true := by
  rcases delta_fst_cases q e with hstay | hclosed | hrow
  · rwa [hstay]
  · rw [hclosed]; rfl
  · exact reachable_of_mem_specificRows _ hrow hq

theorem deltaAll_keeps_reachable (es : List Event) {q : TcpState} (hq : q.reachable = true) :
    (deltaAll q es).reachable = true := by
  induction es generalizing q with
  | nil => exact hq
  | cons e es ih => exact ih (delta_keeps_reachable e hq)

/-- Events that lead from CLOSED to each of the seven states. -/
theorem exists_deltaAll_of_reachable {q : TcpState} (hq : q.reachable = true) :
    ∃ es : List Event, deltaAll .closed es = q := by
  cases q with
  | closed => exact ⟨[], rfl⟩
  | synSent => exact ⟨[.sndSyn], rfl⟩
  | established => exact ⟨[.sndSyn, .rcvSynack], rfl⟩
  | finWait1 => exact ⟨[.sndSyn, .rcvSynack, .sndFin], rfl⟩
  | closing => exact ⟨[.sndSyn, .rcvSynack, .sndFin, .rcvFin], rfl⟩
  | closeWait => exact ⟨[.sndSyn, .rcvSynack, .rcvFin], rfl⟩
  | lastAck => exact ⟨[.sndSyn, .rcvSynack, .rcvFin, .sndFin], rfl⟩
  | listen | synReceived | finWait2 | timeWait => cases hq

/-- Settles O48: events keep to the seven states, by induction on the events, and each of the seven has its events. -/
theorem eventsReachSevenStatesFromClosed : Obligations.EventsReachSevenStatesFromClosed := by
  refine fun q => ⟨?_, exists_deltaAll_of_reachable⟩
  rintro ⟨es, rfl⟩
  exact deltaAll_keeps_reachable es rfl

/-! ## The invariant of a step (R161, R164) -/

/-- RST resets the state registers, an FSM command moves along the table, and no other command writes them (R161). -/
theorem exec_keeps_fsmInv (i : Instr) (s t : State) (hs : s.FsmInv) (h : exec i s = .next t) : t.FsmInv := by
  cases exec_ends h with
  | rst => exact ⟨rfl, rfl⟩
  | fsm e =>
    obtain ⟨hstate, -⟩ := hs
    exact ⟨delta_keeps_reachable e hstate, hstate⟩
  | wr | mov => simpa [State.FsmInv] using hs
  | _ => exact hs

/-- Settles O12: every command keeps the invariant, an illegal word and the port do not touch the state registers. -/
theorem stepKeepsReachableTcpStates : Obligations.StepKeepsReachableTcpStates := fun _ _ =>
  step_preserves (fun _ _ => id) (fun _ _ => id) exec_keeps_fsmInv

end Sys2Proof.Machine
end

section
/-! PROOFS. The eight FSM commands (spec/45_tcp_fsm.md R152 to R160): what delivering an event leaves, by the row of the
table that fits the state it finds, and the one word of each command. -/

namespace Sys2Proof.Machine

/-! ## The words (R150) -/

theorem decode_of_op_eventCommand (e : Event) {w : CommandWord} (h : opField w = opField (encode (eventCommand e))) :
    decode w = formatN w (eventCommand e) := by
  cases e <;> simp only [decode, h, eventCommand, encode, opField_mkWord]

theorem onlyWord_eventCommand (e : Event) : OnlyWord (encode (eventCommand e)) (eventCommand e) := by
  have hword : encode (eventCommand e) = mkWord (opField (encode (eventCommand e))) 0 0 := by cases e <;> rfl
  rw [hword]
  exact onlyWord_mkWord fun _ => decode_of_op_eventCommand e

/-! ## Delivering an event (R152) -/

theorem exec_eventCommand (e : Event) (s : State) : exec (eventCommand e) s = deliver e s := by cases e <;> rfl

theorem exec_eventCommand_of_delta {e : Event} {s : State} {q : TcpState} {c : StatusCode}
    (h : delta s.tcpState e = (q, c)) :
    exec (eventCommand e) s = .next { s with tcpState := q, tcpPrevState := s.tcpState, status := c } := by
  rw [exec_eventCommand, deliver_eq, h]; rfl

/-- An event with a row for the state it finds moves along it, with OK. -/
theorem exec_eventCommand_of_row {q q' : TcpState} (e : Event) {s : State} (hs : s.tcpState = q)
    (hrow : (q, e, q') ∈ specificRows) :
    exec (eventCommand e) s = .next { s with tcpState := q', tcpPrevState := q, status := .ok } := by
  subst hs
  exact exec_eventCommand_of_delta (delta_of_mem_specificRows _ hrow)

/-- An event with no row for the state it finds leaves it, with UNEXPECTED_EVENT. -/
theorem exec_eventCommand_of_no_row (e : Event) {s : State} (hrow : ∀ q' : TcpState, (s.tcpState, e, q') ∉ specificRows)
    (hrst : e ≠ .rcvRst := by decide) (hack : e ≠ .sndAck := by decide) :
    exec (eventCommand e) s = .next { s with tcpPrevState := s.tcpState, status := .unexpectedEvent } :=
  exec_eventCommand_of_delta (delta_of_not_mem_specificRows hrst hack hrow)

/-! ## The statements -/

/-- Settles O49: each of the three events has one row. -/
theorem openingEventCommands : Obligations.OpeningEventCommands :=
  ⟨fun _ h => exec_eventCommand_of_row .rcvSyn h (by decide),
    fun _ h => exec_eventCommand_of_no_row .rcvSyn (by simp [specificRows, h]),
    fun _ h => exec_eventCommand_of_row .rcvSynack h (by decide),
    fun _ h => exec_eventCommand_of_no_row .rcvSynack (by simp [specificRows, h]),
    fun _ h => exec_eventCommand_of_row .rcvAck h (by decide),
    fun _ h => exec_eventCommand_of_no_row .rcvAck (by simp [specificRows, h]),
    onlyWord_eventCommand .rcvSyn, onlyWord_eventCommand .rcvSynack, onlyWord_eventCommand .rcvAck⟩

/-- Settles O50: receive-FIN has three rows. -/
theorem receiveFinCommand : Obligations.ReceiveFinCommand :=
  ⟨fun _ h => exec_eventCommand_of_row .rcvFin h (by decide),
    fun _ h => exec_eventCommand_of_row .rcvFin h (by decide),
    fun _ h => exec_eventCommand_of_row .rcvFin h (by decide),
    fun _ hest hfin1 hfin2 => exec_eventCommand_of_no_row .rcvFin (by simp [specificRows, hest, hfin1, hfin2]),
    onlyWord_eventCommand .rcvFin⟩

/-- Settles O51: neither event looks for a row of the state it finds (R167). -/
theorem receiveRstAndSendAckCommands : Obligations.ReceiveRstAndSendAckCommands :=
  ⟨fun _ => exec_eventCommand_of_delta (e := .rcvRst) (delta_rcvRst _),
    fun _ => exec_eventCommand_of_delta (e := .sndAck) (delta_sndAck _),
    onlyWord_eventCommand .rcvRst, onlyWord_eventCommand .sndAck⟩

/-- Settles O52: local-send-SYN has one row, local-send-FIN two. -/
theorem localSendCommands : Obligations.LocalSendCommands :=
  ⟨fun _ h => exec_eventCommand_of_row .sndSyn h (by decide),
    fun _ h => exec_eventCommand_of_no_row .sndSyn (by simp [specificRows, h]),
    fun _ h => exec_eventCommand_of_row .sndFin h (by decide),
    fun _ h => exec_eventCommand_of_row .sndFin h (by decide),
    fun _ hest hwait => exec_eventCommand_of_no_row .sndFin (by simp [specificRows, hest, hwait]),
    onlyWord_eventCommand .sndSyn, onlyWord_eventCommand .sndFin⟩

end Sys2Proof.Machine
end

section
/-! PROOFS. Outcomes (spec/60_exceptions.md R170, R172, R173): a failing command writes STATUS and nothing else, an
unexpected event TCP_PREV_STATE besides, so the next command runs as if the failing one had not been issued; and which
command ends with which outcome. -/

namespace Sys2Proof.Machine

/-! ## What a failing command leaves (R172) -/

/-- An event ends with OK, or leaves the state and is unexpected; receive-RST and send-ACK always end with OK. -/
theorem delta_ok_or_unexpected (q : TcpState) (e : Event) :
    (delta q e).2 = .ok ∨ (delta q e = (q, .unexpectedEvent) ∧ e ≠ .rcvRst ∧ e ≠ .sndAck) := by
  by_cases hrst : e = .rcvRst
  · subst hrst; rw [delta_rcvRst]; exact .inl rfl
  by_cases hack : e = .sndAck
  · subst hack; exact .inl rfl
  by_cases hrow : ∃ q', (q, e, q') ∈ specificRows
  · obtain ⟨q', hq'⟩ := hrow
    rw [delta_of_mem_specificRows _ hq']
    exact .inl rfl
  · exact .inr ⟨delta_of_not_mem_specificRows hrst hack (not_exists.mp hrow), hrst, hack⟩

/-- `Failed s t`: state `t` is what a command that fails in state `s` leaves, an error or an unexpected event. -/
inductive Failed (s : State) : State → Prop where
  | error {c : StatusCode} (hc : c.isErr = true) : Failed s (s.withStatus c)
  | unexpected : Failed s ((s.withFsm s.tcpState s.tcpState).withStatus .unexpectedEvent)

theorem exec_ok_or_failed {i : Instr} {s t : State} (h : exec i s = .next t) : t.status = .ok ∨ Failed s t := by
  cases exec_ends h with
  | fail _ hc => exact .inr (.error hc)
  | fsm e =>
    rcases delta_ok_or_unexpected s.tcpState e with hok | ⟨hun, -, -⟩
    · exact .inl hok
    · rw [hun]; exact .inr .unexpected
  | _ => exact .inl rfl

theorem issue_ok_or_failed {w : CommandWord} {s t : State} (h : issue w s = .next t) :
    t.status = .ok ∨ Failed s t := by
  cases hw : decode w with
  | instr i => rw [issue_of_instr s hw] at h; exact exec_ok_or_failed h
  | illegal e => rw [issue_of_illegal s hw] at h; cases h; exact .inr (.error rfl)

theorem eq_of_issue_error {w : CommandWord} {s t : State} (h : issue w s = .next t) (herr : t.status.isErr = true) :
    t = s.withStatus t.status := by
  rcases issue_ok_or_failed h with hok | hfail
  · rw [hok] at herr; cases herr
  · cases hfail with
    | error => rfl
    | unexpected => cases herr

theorem eq_of_issue_unexpected {w : CommandWord} {s t : State} (h : issue w s = .next t)
    (hun : t.status = .unexpectedEvent) : t = (s.withFsm s.tcpState s.tcpState).withStatus .unexpectedEvent := by
  rcases issue_ok_or_failed h with hok | hfail
  · rw [hok] at hun; cases hun
  · cases hfail with
    | error hc => cases hun; cases hc
    | unexpected => rfl

/-- Settles O55: the two ends of a failing word are told apart by STATUS. -/
theorem errorOutcomesChangeOnlyStatus : Obligations.ErrorOutcomesChangeOnlyStatus := fun _ _ _ h =>
  ⟨eq_of_issue_error h, eq_of_issue_unexpected h⟩

/-- Settles O58: what a failing word leaves differs from what it found in STATUS, which the next command does not read
(R24), and after an unexpected event in TCP_PREV_STATE. -/
theorem failedCommandLeavesNoTrace : Obligations.FailedCommandLeavesNoTrace := by
  refine fun w s t i h hread => ⟨fun herr => ?_, fun hun => ?_⟩
  · rw [eq_of_issue_error h herr]
    exact exec_withStatus s t.status i hread
  · rw [eq_of_issue_unexpected h hun]
    exact exec_withStatus { s with tcpPrevState := s.tcpState } .unexpectedEvent i hread

/-! ## Which outcomes a command has (R170)

A check adds its own outcome to the OK of the work behind it. -/

section
variable {s t u : State}

theorem status_of_complete (h : complete u = .next t) : t.status = .ok := by cases h; rfl

theorem requireRoom_status {cap n : Nat} (h : requireRoom cap n s (complete u) = .next t) :
    t.status ∈ [StatusCode.ok, .errBufOverflow] :=
  requireRoom_complete_elim (P := fun v => v.status ∈ [StatusCode.ok, .errBufOverflow]) h (by simp) fun _ => by simp

theorem requireLen_status {n : Nat} {c : StatusCode} (h : requireLen n c s (complete u) = .next t) :
    t.status ∈ [StatusCode.ok, c] :=
  requireLen_complete_elim (P := fun v => v.status ∈ [StatusCode.ok, c]) h (by simp) fun _ => by simp

theorem requireIndex_status {k : Nat} {f : Byte → State}
    (h : requireIndex k s (fun b => complete (f b)) = .next t) : t.status ∈ [StatusCode.ok, .errBadIndex] :=
  requireIndex_complete_elim (P := fun v => v.status ∈ [StatusCode.ok, .errBadIndex]) h (by simp) fun _ _ => by simp

theorem exec_wr_status {d : BitVec 8} {v : Datum} (h : exec (.wr d v) s = .next t) :
    t.status ∈ [StatusCode.ok, .errBadReg] := by
  cases hd : destOfIndex d with
  | none => rw [exec_wr_of_no_dest v s hd] at h; cases h; simp
  | some r => rw [exec_wr_of_dest v s hd] at h; cases h; simp

theorem exec_rd_status {x : BitVec 8} (h : exec (.rd x) s = .next t) : t.status ∈ [StatusCode.ok, .errBadReg] := by
  cases hx : regOfIndex x with
  | none => rw [exec_rd_of_no_reg s hx] at h; cases h; simp
  | some r => rw [exec_rd_of_reg s hx] at h; cases h; simp

theorem exec_mov_status {d x : BitVec 8} (h : exec (.mov d x) s = .next t) :
    t.status ∈ [StatusCode.ok, .errBadReg] := by
  cases hd : destOfIndex d with
  | none => rw [exec_mov_of_no_dest_or_no_reg s (.inl hd)] at h; cases h; simp
  | some q =>
    cases hx : regOfIndex x with
    | none => rw [exec_mov_of_no_dest_or_no_reg s (.inr hx)] at h; cases h; simp
    | some r => rw [exec_mov_of_dest_of_reg s hd hx] at h; cases h; simp

/-- A BPUSH that a word selects is not the illegal one (R64). -/
theorem execBpush_status {n : BitVec 8} {v : Datum} (hp : pushOperandsOk n v = true) (h : execBpush n v s = .next t) :
    t.status ∈ [StatusCode.ok, .errBufOverflow] := by
  rw [execBpush, if_pos hp] at h
  exact requireRoom_status h

theorem exec_eventCommand_status {e : Event} (h : exec (eventCommand e) s = .next t) :
    t.status ∈ (eventCommand e).outcomes := by
  rw [exec_eventCommand, deliver_eq] at h
  cases h
  rw [State.withStatus_status]
  rcases delta_ok_or_unexpected s.tcpState e with hok | ⟨hun, hrst, hack⟩
  · rw [hok]; cases e <;> exact .head _
  · rw [hun]
    cases e
    case rcvRst => exact absurd rfl hrst
    case sndAck => exact absurd rfl hack
    all_goals exact .tail _ (.head _)

end

/-- A command that a word selects ends with an outcome of its row in R170's table. -/
theorem exec_status_mem_outcomes {s t : State} : (i : Instr) → i.wellFormed = true → exec i s = .next t →
    t.status ∈ i.outcomes
  | .nop, _, h | .rst, _, h | .bclr, _, h | .csumBuf, _, h | .ip4Csum, _, h =>
    List.mem_singleton.mpr (status_of_complete h)
  | .wr _ _, _, h => exec_wr_status h
  | .rd _, _, h => exec_rd_status h
  | .mov _ _, _, h => exec_mov_status h
  | .bpush _ _, hp, h => execBpush_status hp h
  | .brd _, _, h | .bwr _ _, _, h => requireIndex_status h
  | .ethEnc, _, h | .ip4Enc, _, h | .tcpEnc, _, h | .tcpCsum, _, h => requireRoom_status h
  | .ethDec, _, h | .ip4Dec, _, h | .tcpDec, _, h => requireLen_status h
  | .fsmRcvSyn, _, h => exec_eventCommand_status (e := .rcvSyn) h
  | .fsmRcvSynack, _, h => exec_eventCommand_status (e := .rcvSynack) h
  | .fsmRcvAck, _, h => exec_eventCommand_status (e := .rcvAck) h
  | .fsmRcvFin, _, h => exec_eventCommand_status (e := .rcvFin) h
  | .fsmRcvRst, _, h => exec_eventCommand_status (e := .rcvRst) h
  | .fsmSndSyn, _, h => exec_eventCommand_status (e := .sndSyn) h
  | .fsmSndFin, _, h => exec_eventCommand_status (e := .sndFin) h
  | .fsmSndAck, _, h => exec_eventCommand_status (e := .sndAck) h

/-- Settles O56: a word that selects a command selects a well-formed one, and a word that selects none is the illegal
one. -/
theorem outcomesAreThoseListed : Obligations.OutcomesAreThoseListed := by
  refine fun w s t h => ⟨fun i hw => ?_, fun ⟨e, hw⟩ => ?_⟩
  · rw [issue_of_instr s hw] at h
    obtain ⟨-, hwf⟩ := encode_of_decode hw
    exact exec_status_mem_outcomes i hwf h
  · rw [issue_of_illegal s hw] at h
    cases h; rfl

end Sys2Proof.Machine
end
